-- ==== Sys2Proof/Word.lean ====
section
/-! DEFINITION. The word types of the CORE (spec 00_scope.md R7, R10, R11). -/

namespace Sys2Proof

/-- A memory cell, a general register, a timer (R7: 8 bits). -/
abbrev Byte := BitVec 8

/-- An instruction word, PC, I, a stack entry (R7: 16 bits). -/
abbrev Word := BitVec 16

/-- The `nnn` immediate (R11: w[11:0]). -/
abbrev Addr12 := BitVec 12

/-- The `n` immediate and the family nibble (R11: 4 bits). -/
abbrev Nibble := BitVec 4

/-- A general register's index 0x0..0xF (R21). -/
abbrev Reg := Fin 16

/-- A key code 0x0..0xF (R43). -/
abbrev KeyCode := Fin 16

end Sys2Proof
end

