-- ==== Sys2Proof/Syntax.lean ====
section
/-! DEFINITION. The instructions: one constructor per row of opcode_table.json (30_encoding.md R73, R75). -/

namespace Sys2Proof

/-- The 34 rows of the opcode table, in its order. `x`, `y` are register indices, `n`, `nn`, `nnn`
the immediates of R11. SHR and SHL keep their Y field, which their meanings ignore (R79), and the
tolerated 9XYN keeps its nonzero N, which only its warning reports (R125, D18): so no bit of a legal
word is lost (log 25). -/
inductive Instr where
  | cls
  | ret
  | jp (nnn : Addr12)
  | call (nnn : Addr12)
  | seImm (x : Reg) (nn : Byte)
  | sneImm (x : Reg) (nn : Byte)
  | seReg (x y : Reg)
  | ldImm (x : Reg) (nn : Byte)
  | addImm (x : Reg) (nn : Byte)
  | ldReg (x y : Reg)
  | orReg (x y : Reg)
  | andReg (x y : Reg)
  | xorReg (x y : Reg)
  | addReg (x y : Reg)
  | sub (x y : Reg)
  | shr (x y : Reg)
  | subn (x y : Reg)
  | shl (x y : Reg)
  | sneReg (x y : Reg)
  | sneRegLowN (x y : Reg) (n : Nibble)
  | ldI (nnn : Addr12)
  | jpV0 (nnn : Addr12)
  | rnd (x : Reg) (nn : Byte)
  | drw (x y : Reg) (n : Nibble)
  | skp (x : Reg)
  | sknp (x : Reg)
  | ldVxDT (x : Reg)
  | ldDTVx (x : Reg)
  | ldSTVx (x : Reg)
  | addI (x : Reg)
  | ldF (x : Reg)
  | ldB (x : Reg)
  | ldMemStore (x : Reg)
  | ldMemLoad (x : Reg)
  deriving DecidableEq, Repr

end Sys2Proof
end

