-- ==== Sys2Proof/WellFormed.lean ====
section
/-! DEFINITION. Which instruction terms stand for a word of their opcode-table row. -/

namespace Sys2Proof

/-- The types of the fields already keep every index and immediate in its range (R72). The one
condition left is the table's on SNE_reg_lowN: bits 3:0 != 0 (30_encoding.md R78; N = 0 is SNE_reg). -/
def Instr.wellFormed (i : Instr) : Bool :=
  match i with
  | .sneRegLowN _ _ n => n != 0#4
  | .cls | .ret | .jp _ | .call _ | .seImm _ _ | .sneImm _ _ | .seReg _ _ | .ldImm _ _
  | .addImm _ _ | .ldReg _ _ | .orReg _ _ | .andReg _ _ | .xorReg _ _ | .addReg _ _ | .sub _ _
  | .shr _ _ | .subn _ _ | .shl _ _ | .sneReg _ _ | .ldI _ | .jpV0 _ | .rnd _ _ | .drw _ _ _
  | .skp _ | .sknp _ | .ldVxDT _ | .ldDTVx _ | .ldSTVx _ | .addI _ | .ldF _ | .ldB _
  | .ldMemStore _ | .ldMemLoad _ => true

end Sys2Proof
end

