-- ==== Sys2Proof/Decode.lean ====
section
/-! DEFINITION. The decoder (30_encoding.md R70 to R85), total on any bytes and rejecting by name,
and after it the encoder, written from the same table (R75). -/

namespace Sys2Proof

/-! ### The fields of a word (R11, R70) -/

/-- w[15:12], the family. -/
def fieldFamily (w : Word) : Nibble := w.extractLsb' 12 4

/-- w[11:8], the register index X. -/
def fieldX (w : Word) : Reg := (w.extractLsb' 8 4).toFin

/-- w[7:4], the register index Y. -/
def fieldY (w : Word) : Reg := (w.extractLsb' 4 4).toFin

/-- w[3:0], the nibble N. -/
def fieldN (w : Word) : Nibble := w.extractLsb' 0 4

/-- w[7:0], the byte NN. -/
def fieldNN (w : Word) : Byte := w.extractLsb' 0 8

/-- w[11:0], the address NNN. -/
def fieldNNN (w : Word) : Addr12 := w.extractLsb' 0 12

/-! ### Decoding -/

/-- Why bytes are no instruction, by name. The first five are the DecodeFault leaves of R73. -/
inductive IllegalWord where
  /-- 0x0NNN other than 00E0 and 00EE (R76). -/
  | family0
  /-- 5XYN with N != 0 (R77). -/
  | family5LowNibble
  /-- 8XYN with N in 8, 9, A, B, C, D, F (R79). -/
  | family8SubOp
  /-- EXNN with NN other than 9E and A1 (R80). -/
  | familyELowByte
  /-- FXNN outside the table, 0xFX0A among them (R80). -/
  | familyFLowByte
  /-- Fewer than two bytes: no word at all. The machine's fetch never gives such bytes. -/
  | truncated
  deriving DecidableEq, Repr

/-- What decoding answers. -/
inductive Decoded where
  | instr (i : Instr)
  | illegal (why : IllegalWord)
  deriving DecidableEq, Repr

/-- Family 0x0 (R73, R76). -/
def decodeFamily0 (w : Word) : Decoded :=
  if w = 0x00E0#16 then .instr .cls
  else if w = 0x00EE#16 then .instr .ret
  else .illegal .family0

/-- Family 0x5 (R73, R77). -/
def decodeFamily5 (w : Word) : Decoded :=
  if fieldN w = 0#4 then .instr (.seReg (fieldX w) (fieldY w)) else .illegal .family5LowNibble

/-- Family 0x8 (R73, R79). -/
def decodeFamily8 (w : Word) : Decoded :=
  let x := fieldX w
  let y := fieldY w
  let n := fieldN w
  if n = 0x0#4 then .instr (.ldReg x y)
  else if n = 0x1#4 then .instr (.orReg x y)
  else if n = 0x2#4 then .instr (.andReg x y)
  else if n = 0x3#4 then .instr (.xorReg x y)
  else if n = 0x4#4 then .instr (.addReg x y)
  else if n = 0x5#4 then .instr (.sub x y)
  else if n = 0x6#4 then .instr (.shr x y)
  else if n = 0x7#4 then .instr (.subn x y)
  else if n = 0xE#4 then .instr (.shl x y)
  else .illegal .family8SubOp

/-- Family 0x9: a nonzero low nibble is tolerated (R73, R78). -/
def decodeFamily9 (w : Word) : Decoded :=
  if fieldN w = 0#4 then .instr (.sneReg (fieldX w) (fieldY w))
  else .instr (.sneRegLowN (fieldX w) (fieldY w) (fieldN w))

/-- Family 0xE (R73, R80). -/
def decodeFamilyE (w : Word) : Decoded :=
  let nn := fieldNN w
  if nn = 0x9E#8 then .instr (.skp (fieldX w))
  else if nn = 0xA1#8 then .instr (.sknp (fieldX w))
  else .illegal .familyELowByte

/-- Family 0xF (R73, R80). -/
def decodeFamilyF (w : Word) : Decoded :=
  let x := fieldX w
  let nn := fieldNN w
  if nn = 0x07#8 then .instr (.ldVxDT x)
  else if nn = 0x15#8 then .instr (.ldDTVx x)
  else if nn = 0x18#8 then .instr (.ldSTVx x)
  else if nn = 0x1E#8 then .instr (.addI x)
  else if nn = 0x29#8 then .instr (.ldF x)
  else if nn = 0x33#8 then .instr (.ldB x)
  else if nn = 0x55#8 then .instr (.ldMemStore x)
  else if nn = 0x65#8 then .instr (.ldMemLoad x)
  else .illegal .familyFLowByte

/-- The decode tree of R73 on one word: the family, then the field the family tests. All sixteen
families have a branch, so no word is left over (R74, R82). -/
def decodeWord (w : Word) : Decoded :=
  let f := fieldFamily w
  if f = 0x0#4 then decodeFamily0 w
  else if f = 0x1#4 then .instr (.jp (fieldNNN w))
  else if f = 0x2#4 then .instr (.call (fieldNNN w))
  else if f = 0x3#4 then .instr (.seImm (fieldX w) (fieldNN w))
  else if f = 0x4#4 then .instr (.sneImm (fieldX w) (fieldNN w))
  else if f = 0x5#4 then decodeFamily5 w
  else if f = 0x6#4 then .instr (.ldImm (fieldX w) (fieldNN w))
  else if f = 0x7#4 then .instr (.addImm (fieldX w) (fieldNN w))
  else if f = 0x8#4 then decodeFamily8 w
  else if f = 0x9#4 then decodeFamily9 w
  else if f = 0xA#4 then .instr (.ldI (fieldNNN w))
  else if f = 0xB#4 then .instr (.jpV0 (fieldNNN w))
  else if f = 0xC#4 then .instr (.rnd (fieldX w) (fieldNN w))
  else if f = 0xD#4 then .instr (.drw (fieldX w) (fieldY w) (fieldN w))
  else if f = 0xE#4 then decodeFamilyE w
  else decodeFamilyF w

/-- A word from the two bytes at PC and PC+1: the first is the high byte (R51, R71). -/
def wordOfBytes (hi lo : Byte) : Word := hi ++ lo

/-- Decoding the bytes at an instruction's address; what follows the first two is not looked at (R70). -/
def decode (bytes : List Byte) : Decoded :=
  match bytes with
  | hi :: lo :: _ => decodeWord (wordOfBytes hi lo)
  | _ => .illegal .truncated

/-! ### Encoding (R75 and the `encoding` strings of opcode_table.json, bit 15 first) -/

/-- The four bits of a register index. -/
def regBits (r : Reg) : Nibble := BitVec.ofFin r

/-- `ffff aaaa aaaa aaaa`. -/
def formNNN (f : Nibble) (nnn : Addr12) : Word := f ++ nnn

/-- `ffff xxxx bbbb bbbb`. -/
def formXNN (f : Nibble) (x : Reg) (nn : Byte) : Word := f ++ regBits x ++ nn

/-- `ffff xxxx yyyy nnnn`. -/
def formXYN (f : Nibble) (x y : Reg) (n : Nibble) : Word := f ++ regBits x ++ regBits y ++ n

/-- The word of an instruction. -/
def encodeWord (i : Instr) : Word :=
  match i with
  | .cls => 0x00E0#16
  | .ret => 0x00EE#16
  | .jp nnn => formNNN 0x1#4 nnn
  | .call nnn => formNNN 0x2#4 nnn
  | .seImm x nn => formXNN 0x3#4 x nn
  | .sneImm x nn => formXNN 0x4#4 x nn
  | .seReg x y => formXYN 0x5#4 x y 0x0#4
  | .ldImm x nn => formXNN 0x6#4 x nn
  | .addImm x nn => formXNN 0x7#4 x nn
  | .ldReg x y => formXYN 0x8#4 x y 0x0#4
  | .orReg x y => formXYN 0x8#4 x y 0x1#4
  | .andReg x y => formXYN 0x8#4 x y 0x2#4
  | .xorReg x y => formXYN 0x8#4 x y 0x3#4
  | .addReg x y => formXYN 0x8#4 x y 0x4#4
  | .sub x y => formXYN 0x8#4 x y 0x5#4
  | .shr x y => formXYN 0x8#4 x y 0x6#4
  | .subn x y => formXYN 0x8#4 x y 0x7#4
  | .shl x y => formXYN 0x8#4 x y 0xE#4
  | .sneReg x y => formXYN 0x9#4 x y 0x0#4
  | .sneRegLowN x y n => formXYN 0x9#4 x y n
  | .ldI nnn => formNNN 0xA#4 nnn
  | .jpV0 nnn => formNNN 0xB#4 nnn
  | .rnd x nn => formXNN 0xC#4 x nn
  | .drw x y n => formXYN 0xD#4 x y n
  | .skp x => formXNN 0xE#4 x 0x9E#8
  | .sknp x => formXNN 0xE#4 x 0xA1#8
  | .ldVxDT x => formXNN 0xF#4 x 0x07#8
  | .ldDTVx x => formXNN 0xF#4 x 0x15#8
  | .ldSTVx x => formXNN 0xF#4 x 0x18#8
  | .addI x => formXNN 0xF#4 x 0x1E#8
  | .ldF x => formXNN 0xF#4 x 0x29#8
  | .ldB x => formXNN 0xF#4 x 0x33#8
  | .ldMemStore x => formXNN 0xF#4 x 0x55#8
  | .ldMemLoad x => formXNN 0xF#4 x 0x65#8

/-- The high byte of a word, the one at the lower address (R51). -/
def highByte (w : Word) : Byte := w.extractLsb' 8 8

/-- The low byte of a word. -/
def lowByte (w : Word) : Byte := w.extractLsb' 0 8

/-- The two bytes of a word, the one at the lower address first (R51). -/
def bytesOfWord (w : Word) : List Byte := [highByte w, lowByte w]

/-- The bytes of an instruction, in address order. -/
def encode (i : Instr) : List Byte := bytesOfWord (encodeWord i)

/-! ### The host's numbering of an instruction's bits -/

/-- The word whose bits the opcode table numbers as `w`, of which the low `nbits` count: bit 0 is the
least significant bit of the one word an instruction has (R70). -/
def tableWord (nbits w : Nat) : Word := BitVec.ofNat 16 (w % 2 ^ nbits)

/-- The instruction the decoder reads from an opcode-table word. -/
def decodeTableWord (nbits w : Nat) : Option Instr :=
  match decode (bytesOfWord (tableWord nbits w)) with
  | .instr i => some i
  | .illegal _ => none

end Sys2Proof
end

