-- ==== Sys2Proof/Config.lean ====
section
/-! DEFINITION. What the spec leaves open as a parameter (00_scope.md R8) and the free values the
devices answer with. Every constant here is opaque: no proof can see its value. -/

namespace Sys2Proof

/-- FONT_BASE, the address of the sprite of hex digit 0 (R8, D5, log 2). The type keeps the one limit
the spec sets, FONT_BASE + 80 <= 0x200, that is FONT_BASE in 0..432. -/
opaque Config.fontBase : Fin 433

/-- The random port's answer to the `k`-th call the core makes of a port that answers (R45, D16, log 1). -/
opaque Config.randomByte : Nat → Byte

/-- The input port's answer to the `k`-th answered call: is this key pressed at that moment (R43, D22, log 1). -/
opaque Config.keyPressed : Nat → KeyCode → Bool

/-- The display port's collision answer to the `k`-th answered call (R42, D22, log 1). -/
opaque Config.spriteCollided : Nat → Bool

/-- How many ticks of DT the timer driver makes just before step `k` (R236, D15, log 3). -/
opaque Config.delayTicks : Nat → Nat

/-- How many ticks of ST the timer driver makes just before step `k` (R236, D15, log 3). -/
opaque Config.soundTicks : Nat → Nat

end Sys2Proof
end

