-- ==== Sys2Proof/Machine/State.lean ====
section
/-! DEFINITION. The state of the CORE (10_state.md R20 to R36), its reset, and the reasons a step can stop. -/

namespace Sys2Proof.Machine

/-- Memory as listed (address, byte) pairs in the canonical form `Memory.wf` (Machine/Memory.lean). -/
abbrev Memory := List Host.Cell

/-- The four kinds of fault the CORE raises (60_exceptions.md R220). None of them stops the machine:
each is taken by the fault reset (R225). -/
inductive FaultKind where
  | decodeFault
  | stackUnderflow
  | stackOverflow
  | addressRangeFault
  deriving DecidableEq, Repr

/-- What the trace port is sent (10_state.md R44, D18). The text of a message is not specified. -/
inductive TraceEvent where
  /-- The diagnostic of a fault reset, naming the kind (R225). -/
  | faultTrace (k : FaultKind)
  /-- The warning of 9XYN with N != 0; `w` is the word (R125, D18). -/
  | warn9XYN (w : Word)
  deriving DecidableEq, Repr

/-- One call across the boundary of the block, with its operands and its answer (00_scope.md R15). -/
inductive PortEvent where
  /-- `clear_screen()` (R42). -/
  | clearScreen
  /-- `draw_sprite(px, py, rows) -> collided`; row 0 first (R42, R180). -/
  | drawSprite (px py : Byte) (rows : List Byte) (collided : Bool)
  /-- `is_key_pressed(k) -> pressed` (R43). -/
  | keyQuery (k : KeyCode) (pressed : Bool)
  /-- `rand8() -> r` (R45). -/
  | randomDraw (r : Byte)
  /-- `trace(msg)` (R44). -/
  | trace (e : TraceEvent)
  deriving DecidableEq, Repr

/-- The state. The first eight fields are the spec's whole state vector (R20). The last three are the
MODEL's own: the record of the calls made across the ports (D18, log 18), newest first, and the two
counters that select the next free value (logs 1 and 3). -/
structure State where
  mem : Memory
  v : Vector Byte 16
  i : Word
  pc : Word
  stack : Vector Word 16
  sp : Nat
  dt : Byte
  st : Byte
  portLog : List PortEvent
  draws : Nat
  steps : Nat
  deriving DecidableEq, Repr

/-- Construction: every piece of the spec's state is zero (R35, 70_reset_and_hazards.md R250). No
program is in memory and PC is 0: the host loads a program and sets PC (R253, log 7). -/
def State.reset : State where
  mem := []
  v := Vector.replicate 16 0#8
  i := 0#16
  pc := 0#16
  stack := Vector.replicate 16 0#16
  sp := 0
  dt := 0#8
  st := 0#8
  portLog := []
  draws := 0
  steps := 0

/-- The faults that stop the machine: there are none. "The core never halts: every step returns, a
fault restarts at 0x000" (R259), so each of the four fault kinds is a next state (R225, log 26). -/
inductive Fault where
  deriving DecidableEq, Repr

/-- The refusals of a step. -/
inductive Refusal where
  /-- An instruction without a meaning yet; only `exec`'s arms answer it. Safe. No arm does now. -/
  | notModelled (mnemonic : String)
  /-- SP is outside 0..16, which only a host write can bring about: "such a state is outside the spec,
  and a model refuses to step it" (R30, D20, U16, log 19). Raised by `step`, and by CALL and RET, whose
  stack access would be outside the stack. Safe. -/
  | spOutOfRange
  deriving DecidableEq, Repr

/-- What a step or a meaning answers. -/
abbrev Result := Host.Outcome State Fault Refusal

end Sys2Proof.Machine
end

