-- ==== Sys2Proof/Machine/Flags.lean ====
section
/-! DEFINITION. The values written to VF as a flag (10_state.md R22; 42_alu.md R147 to R151). Each is
computed from the operands captured before any write (R140). -/

namespace Sys2Proof.Machine

/-- The flag register VF = V[0xF] (R22). -/
def flagReg : Reg := 0xF

/-- `c ? 1 : 0`. -/
def flagByte (c : Bool) : Byte := if c then 1#8 else 0#8

/-- 8XY4: 1 iff the unbounded sum exceeds 0xFF (R147). -/
def carryFlag (a b : Byte) : Byte := flagByte (decide (a.toNat + b.toNat > 0xFF))

/-- 8XY5 on (a, b) and 8XY7 on (b, a): 1 iff the minuend is strictly greater (R148, R150; C9, log 23). -/
def greaterFlag (minuend subtrahend : Byte) : Byte :=
  flagByte (decide (minuend.toNat > subtrahend.toNat))

/-- 8XY6: the bit shifted out, old bit 0 (R149). -/
def shiftedOutLow (a : Byte) : Byte := a &&& 0x01#8

/-- 8XYE: the bit shifted out, old bit 7 (R151). -/
def shiftedOutHigh (a : Byte) : Byte := (a >>> 7) &&& 0x01#8

end Sys2Proof.Machine
end

