-- ==== Sys2Proof/Machine/Memory.lean ====
section
/-! DEFINITION. Memory: 4096 byte cells in one canonical list (20_memory.md R50 to R57; 00_scope.md R13). -/

namespace Sys2Proof.Machine

/-- How many cells there are: addresses 0x000 to 0xFFF (R50). -/
def memSize : Nat := 0x1000

/-- What an address that is not listed reads as: construction and full reset zero every cell (R35, R250). -/
def Memory.unlisted : Byte := 0#8

/-- The form from address `lo` on: addresses rise strictly, lie in the address space, and no listed
byte is what an unlisted address reads as. -/
def Memory.wfFrom (lo : Nat) (m : Memory) : Bool :=
  match m with
  | [] => true
  | (a, b) :: rest =>
    decide (lo ≤ a) && decide (a < memSize) && (b != Memory.unlisted) && Memory.wfFrom (a + 1) rest

/-- The canonical form, so that equal memories are equal lists (log 32). -/
def Memory.wf (m : Memory) : Bool := Memory.wfFrom 0 m

/-- M[a]. -/
def Memory.read (m : Memory) (a : Nat) : Byte :=
  match m with
  | [] => Memory.unlisted
  | (a', b) :: rest => if a' = a then b else Memory.read rest a

/-- One cell in front of a list, left out where it would say what an unlisted address reads as. -/
def Memory.consCell (a : Nat) (b : Byte) (m : Memory) : Memory :=
  if b = Memory.unlisted then m else (a, b) :: m

/-- M[a] <- b, in canonical form. -/
def Memory.write (m : Memory) (a : Nat) (b : Byte) : Memory :=
  match m with
  | [] => Memory.consCell a b []
  | (a', b') :: rest =>
    if a < a' then Memory.consCell a b ((a', b') :: rest)
    else if a = a' then Memory.consCell a b rest
    else (a', b') :: Memory.write rest a b

/-- MemRead(a, n): the bytes M[a], ..., M[a+n-1]; MemRead(a, 0) is empty (R13). -/
def Memory.readBytes (m : Memory) (a n : Nat) : List Byte :=
  match n with
  | 0 => []
  | n + 1 => m.read a :: Memory.readBytes m (a + 1) n

/-- MemWrite of a run of bytes, the first at `a`, in rising address order (R13, R52). -/
def Memory.writeBytes (m : Memory) (a : Nat) (bytes : List Byte) : Memory :=
  match bytes with
  | [] => m
  | b :: rest => Memory.writeBytes (m.write a b) (a + 1) rest

/-- InRange(a, n) of R55; the sum is not truncated (D23, log 13). -/
abbrev InRange (a n : Nat) : Prop := 1 ≤ n ∧ a + n - 1 ≤ 0xFFF

end Sys2Proof.Machine
end

