-- ==== Sys2Proof/Machine/Operands.lean ====
section
/-! DEFINITION. Operand forms (30_encoding.md R72): how an instruction's fields and registers become values. -/

namespace Sys2Proof.Machine

/-- zext_16 of a 12-bit address immediate (R72: nothing is sign-extended, scaled or shifted). -/
def zextAddr (nnn : Addr12) : Word := nnn.setWidth 16

/-- zext_16 of a register's byte (R171, R193). -/
def zextByte (b : Byte) : Word := b.setWidth 16

/-- `b & 0x0F` as a key code or a digit (R181, R194; D12, log 14). -/
def lowNibble (b : Byte) : Fin 16 := (b.extractLsb' 0 4).toFin

/-- FONT_BASE + 5 * (b & 0x0F), the address of a digit's sprite (R194). At most 432 + 75, so no wrap. -/
def digitAddress (b : Byte) : Word := BitVec.ofNat 16 (Config.fontBase.val + 5 * (lowNibble b).val)

/-- The decimal digits of a byte as hundreds, tens, units (R195). -/
def decimalDigits (b : Byte) : List Byte :=
  [BitVec.ofNat 8 (b.toNat / 100), BitVec.ofNat 8 (b.toNat / 10 % 10), BitVec.ofNat 8 (b.toNat % 10)]

end Sys2Proof.Machine
end

