-- ==== Sys2Proof/Machine/Ops.lean ====
section
/-! DEFINITION. The named operations the meanings share: registers, PC, the ports, taking a fault, the
stack, the timers, and fetching. -/

namespace Sys2Proof.Machine

/-! ### Registers and PC -/

/-- V[r] (R12, R21). -/
def State.getV (s : State) (r : Reg) : Byte := s.v.get r

/-- V[r] <- b. -/
def State.setV (s : State) (r : Reg) (b : Byte) : State := { s with v := s.v.set r.val b r.isLt }

/-- I <- w. -/
def State.setI (s : State) (w : Word) : State := { s with i := w }

/-- PC <- w. -/
def State.setPc (s : State) (w : Word) : State := { s with pc := w }

/-- The default PC <- (PC + 2) mod 2^16 (R24; D3, log 6). -/
def State.advance (s : State) : State := s.setPc (s.pc + 2#16)

/-- SkipIf(c) (41_skips.md R120): +4 in place of the default +2. -/
def skipIf (c : Bool) (s : State) : Result :=
  .next (if c then s.setPc (s.pc + 4#16) else s.advance)

/-- The end of an instruction that writes V[x] and no flag (R140). -/
def writeResult (x : Reg) (r : Byte) (s : State) : Result := .next (s.setV x r).advance

/-- The end of an instruction that writes V[x] and then VF, so that VF holds the flag when x = 0xF
(R140; D6, log 8). -/
def writeResultAndFlag (x : Reg) (r flag : Byte) (s : State) : Result :=
  .next ((s.setV x r).setV flagReg flag).advance

/-- V[0], ..., V[x] in order (R196). -/
def State.regsUpTo (s : State) (x : Reg) : List Byte := s.v.toList.take (x.val + 1)

/-- V[j] <- the first byte, V[j+1] <- the second, ... (R197). -/
def loadRegs (v : Vector Byte 16) (j : Nat) (bytes : List Byte) : Vector Byte 16 :=
  match bytes with
  | [] => v
  | b :: rest => loadRegs (v.setIfInBounds j b) (j + 1) rest

/-! ### The ports (00_scope.md R15; one call each, D26) -/

/-- Record a call across the boundary of the block. -/
def State.logPort (s : State) (e : PortEvent) : State := { s with portLog := e :: s.portLog }

/-- Move on to the next free answer (log 1). -/
def State.nextDraw (s : State) : State := { s with draws := s.draws + 1 }

/-- `trace(msg)`; it returns nothing and changes no core state (R44). -/
def callTrace (e : TraceEvent) (s : State) : State := s.logPort (.trace e)

/-- `clear_screen()` (R42). -/
def callClearScreen (s : State) : State := s.logPort .clearScreen

/-- `draw_sprite(px, py, rows)`: the device's answer, a free Boolean (R42, D22). -/
def callDrawSprite (px py : Byte) (rows : List Byte) (s : State) : Bool × State :=
  let c := Config.spriteCollided s.draws
  (c, (s.logPort (.drawSprite px py rows c)).nextDraw)

/-- `is_key_pressed(k)`: the device's answer, a free Boolean (R43, D22). -/
def callIsKeyPressed (k : KeyCode) (s : State) : Bool × State :=
  let p := Config.keyPressed s.draws k
  (p, (s.logPort (.keyQuery k p)).nextDraw)

/-- `rand8()`: a free byte (R45, D16). -/
def callRand8 (s : State) : Byte × State :=
  let r := Config.randomByte s.draws
  (r, (s.logPort (.randomDraw r)).nextDraw)

/-! ### Taking a fault (60_exceptions.md R225 to R230)

There is no return from a fault: nothing is saved and execution goes on at 0x000 (R230). -/

/-- FaultReset(k): PC, I and SP become 0 and the trace names the kind; M, V, S, DT and ST keep their
values (R225). -/
def faultReset (k : FaultKind) (s : State) : State :=
  callTrace (.faultTrace k) { s with pc := 0#16, i := 0#16, sp := 0 }

/-- `raise Fault(k)`: the instruction ends here with no effect of its own, the fault reset runs, and
the step returns normally (00_scope.md R14, R225). -/
def raiseFault (k : FaultKind) (s : State) : Result := .next (faultReset k s)

/-! ### The call stack (10_state.md R27 to R30) -/

/-- Push(w), then the rest of the instruction; the overflow test comes before any write (R28). Above
16 there is no entry to write and the state is outside the spec (R30, D20). -/
def pushThen (w : Word) (s : State) (rest : State → Result) : Result :=
  if s.sp = 16 then raiseFault .stackOverflow s
  else if h : s.sp < 16 then rest { s with stack := s.stack.set s.sp w h, sp := s.sp + 1 }
  else .refused .spOutOfRange

/-- Pop(), then the rest of the instruction with the popped word; the entry keeps its value (R29; D13,
log 15). -/
def popThen (s : State) (rest : Word → State → Result) : Result :=
  if s.sp = 0 then raiseFault .stackUnderflow s
  else if h : s.sp - 1 < 16 then rest (s.stack[s.sp - 1]'h) { s with sp := s.sp - 1 }
  else .refused .spOutOfRange

/-! ### Checked access through I (20_memory.md R55, R56) -/

/-- Run the rest of an instruction that accesses M[I..I+n-1], once the whole range is checked. -/
def withRangeAtI (n : Nat) (s : State) (rest : Result) : Result :=
  if InRange s.i.toNat n then rest else raiseFault .addressRangeFault s

/-! ### The timers (60_exceptions.md R236) -/

/-- TimerTick(T): one decrement, stopping at 0 (G5, log 3). -/
def timerTick (t : Byte) : Byte := if t = 0#8 then 0#8 else t - 1#8

/-- `n` ticks of one timer; a stopped timer needs no count to stay 0. -/
def timerTicks (n : Nat) (t : Byte) : Byte :=
  if t = 0#8 then 0#8 else BitVec.ofNat 8 (t.toNat - n)

/-- The timer driver's turn before a step: any number of ticks of each timer (R64, R236; D15, log 3). -/
def beginStep (s : State) : State :=
  { s with
    dt := timerTicks (Config.delayTicks s.steps) s.dt
    st := timerTicks (Config.soundTicks s.steps) s.st
    steps := s.steps + 1 }

/-! ### Fetch and decode (30_encoding.md R71, R73; 20_memory.md R54) -/

/-- SP is in [0, 16], the data model's invariant (R27, R30). -/
def spInRange (s : State) : Bool := decide (s.sp ≤ 16)

/-- The two bytes at PC, where both cells exist (R54, R71; D1, log 4). -/
def fetch (s : State) : Option (List Byte) :=
  if s.pc.toNat ≤ 0xFFE then some (s.mem.readBytes s.pc.toNat 2) else none

/-- What a step finds at PC. -/
inductive Fetched where
  | instr (i : Instr)
  | faults (k : FaultKind)
  deriving DecidableEq, Repr

/-- The fetch test, then decode, in this order (R229). -/
def fetchDecode (s : State) : Fetched :=
  match fetch s with
  | none => .faults .addressRangeFault
  | some bytes =>
    match decode bytes with
    | .instr i => .instr i
    | .illegal _ => .faults .decodeFault

/-! ### Placing an instruction where the next step fetches (log 27) -/

/-- The address the word is stored at: PC where a fetch there is possible, else the program load
address 0x200 (R7), since no cell exists at such a PC. -/
def placeAddress (s : State) : Word := if s.pc.toNat ≤ 0xFFE then s.pc else 0x200#16

/-- Store a word's two bytes there, and let PC point to it. -/
def placeWord (s : State) (w : Word) : State :=
  { s with
    mem := s.mem.writeBytes (placeAddress s).toNat (bytesOfWord w)
    pc := placeAddress s }

end Sys2Proof.Machine
end

