-- ==== Sys2Proof/Machine/Alu.lean ====
section
/-! DEFINITION. Families 0x6, 0x7, 0x8: register loads and the ALU (42_alu.md). The operands are read
before any write (R140); every result wraps modulo 256 (R152). -/

namespace Sys2Proof.Machine

/-- LD Vx, nn (R141). -/
def execLdImm (x : Reg) (nn : Byte) (s : State) : Result := writeResult x nn s

/-- ADD Vx, nn (R142): no flag. -/
def execAddImm (x : Reg) (nn : Byte) (s : State) : Result := writeResult x (s.getV x + nn) s

/-- LD Vx, Vy (R143). -/
def execLdReg (x y : Reg) (s : State) : Result := writeResult x (s.getV y) s

/-- OR Vx, Vy (R144): VF is not reset (D7, log 9). -/
def execOrReg (x y : Reg) (s : State) : Result := writeResult x (s.getV x ||| s.getV y) s

/-- AND Vx, Vy (R145). -/
def execAndReg (x y : Reg) (s : State) : Result := writeResult x (s.getV x &&& s.getV y) s

/-- XOR Vx, Vy (R146). -/
def execXorReg (x y : Reg) (s : State) : Result := writeResult x (s.getV x ^^^ s.getV y) s

/-- ADD Vx, Vy (R147): VF is the carry out. -/
def execAddReg (x y : Reg) (s : State) : Result :=
  writeResultAndFlag x (s.getV x + s.getV y) (carryFlag (s.getV x) (s.getV y)) s

/-- SUB Vx, Vy (R148): VF is 1 iff Vx > Vy strictly. -/
def execSub (x y : Reg) (s : State) : Result :=
  writeResultAndFlag x (s.getV x - s.getV y) (greaterFlag (s.getV x) (s.getV y)) s

/-- SHR Vx (R149): in place; `y` is ignored (R79). -/
def execShr (x _y : Reg) (s : State) : Result :=
  writeResultAndFlag x (s.getV x >>> 1) (shiftedOutLow (s.getV x)) s

/-- SUBN Vx, Vy (R150): VF is 1 iff Vy > Vx strictly. -/
def execSubn (x y : Reg) (s : State) : Result :=
  writeResultAndFlag x (s.getV y - s.getV x) (greaterFlag (s.getV y) (s.getV x)) s

/-- SHL Vx (R151): in place; `y` is ignored (R79). -/
def execShl (x _y : Reg) (s : State) : Result :=
  writeResultAndFlag x (s.getV x <<< 1) (shiftedOutHigh (s.getV x)) s

end Sys2Proof.Machine
end

