-- ==== Sys2Proof/Machine/DisplayInput.lean ====
section
/-! DEFINITION. Families 0xD, 0xE: sprite draw and key skips (44_display_input.md). -/

namespace Sys2Proof.Machine

/-- The display port's call of DRW and its answer in VF (R180); the coordinates go unreduced (D27, log 22). -/
def drawThenFlag (x y : Reg) (rows : List Byte) (s : State) : Result :=
  let (c, t) := callDrawSprite (s.getV x) (s.getV y) rows s
  .next (t.setV flagReg (flagByte c)).advance

/-- DRW Vx, Vy, n (R180): with n = 0 no cell is read, nothing is checked and the sprite is empty; else
the whole range is checked before the port is called (D10, log 12). -/
def execDrw (x y : Reg) (n : Nibble) (s : State) : Result :=
  if n = 0#4 then drawThenFlag x y [] s
  else withRangeAtI n.toNat s (drawThenFlag x y (s.mem.readBytes s.i.toNat n.toNat) s)

/-- SKP Vx (R181). -/
def execSkp (x : Reg) (s : State) : Result :=
  let (pressed, t) := callIsKeyPressed (lowNibble (s.getV x)) s
  skipIf pressed t

/-- SKNP Vx (R182). -/
def execSknp (x : Reg) (s : State) : Result :=
  let (pressed, t) := callIsKeyPressed (lowNibble (s.getV x)) s
  skipIf (!pressed) t

end Sys2Proof.Machine
end

