-- ==== Sys2Proof/Machine/FxFamily.lean ====
section
/-! DEFINITION. Family 0xF: timers, index arithmetic, digit sprites, decimal encode, block transfer
(45_fx_family.md). None of these changes I, but for ADD I and LD F (D8, log 10). -/

namespace Sys2Proof.Machine

/-- LD Vx, DT (R190). -/
def execLdVxDT (x : Reg) (s : State) : Result := writeResult x s.dt s

/-- LD DT, Vx (R191). -/
def execLdDTVx (x : Reg) (s : State) : Result := .next { s with dt := s.getV x }.advance

/-- LD ST, Vx (R192). -/
def execLdSTVx (x : Reg) (s : State) : Result := .next { s with st := s.getV x }.advance

/-- ADD I, Vx (R193): mod 2^16, no flag, no range check (D9, log 11). -/
def execAddI (x : Reg) (s : State) : Result := .next (s.setI (s.i + zextByte (s.getV x))).advance

/-- LD F, Vx (R194). -/
def execLdF (x : Reg) (s : State) : Result := .next (s.setI (digitAddress (s.getV x))).advance

/-- LD B, Vx (R195): hundreds, tens, units at I, I+1, I+2, once all three cells are known to exist
(D11, log 13). -/
def execLdB (x : Reg) (s : State) : Result :=
  withRangeAtI 3 s
    (.next { s with mem := s.mem.writeBytes s.i.toNat (decimalDigits (s.getV x)) }.advance)

/-- LD [I], Vx (R196): V0..Vx to M[I..I+x], all or nothing. -/
def execLdMemStore (x : Reg) (s : State) : Result :=
  withRangeAtI (x.val + 1) s
    (.next { s with mem := s.mem.writeBytes s.i.toNat (s.regsUpTo x) }.advance)

/-- LD Vx, [I] (R197): M[I..I+x] to V0..Vx, all or nothing. -/
def execLdMemLoad (x : Reg) (s : State) : Result :=
  withRangeAtI (x.val + 1) s
    (.next { s with v := loadRegs s.v 0 (s.mem.readBytes s.i.toNat (x.val + 1)) }.advance)

end Sys2Proof.Machine
end

