-- ==== Sys2Proof/Machine/IndexJumpRandom.lean ====
section
/-! DEFINITION. Families 0xA, 0xB, 0xC: index load, indexed jump, random (43_index_jump_random.md). -/

namespace Sys2Proof.Machine

/-- LD I, nnn (R170). -/
def execLdI (nnn : Addr12) (s : State) : Result := .next (s.setI (zextAddr nnn)).advance

/-- JP V0, nnn (R171): always V0; at most 0x10FE, so no wrap. -/
def execJpV0 (nnn : Addr12) (s : State) : Result :=
  .next (s.setPc (zextByte (s.getV 0) + zextAddr nnn))

/-- RND Vx, nn (R172): one free byte, masked (D16, log 1). -/
def execRnd (x : Reg) (nn : Byte) (s : State) : Result :=
  let (r, t) := callRand8 s
  writeResult x (r &&& nn) t

end Sys2Proof.Machine
end

