-- ==== Sys2Proof/Machine/Skips.lean ====
section
/-! DEFINITION. Families 0x3, 0x4, 0x5, 0x9: conditional skips (41_skips.md). -/

namespace Sys2Proof.Machine

/-- SE Vx, nn (R121). -/
def execSeImm (x : Reg) (nn : Byte) (s : State) : Result := skipIf (s.getV x == nn) s

/-- SNE Vx, nn (R122). -/
def execSneImm (x : Reg) (nn : Byte) (s : State) : Result := skipIf (s.getV x != nn) s

/-- SE Vx, Vy (R123). -/
def execSeReg (x y : Reg) (s : State) : Result := skipIf (s.getV x == s.getV y) s

/-- SNE Vx, Vy (R124). -/
def execSneReg (x y : Reg) (s : State) : Result := skipIf (s.getV x != s.getV y) s

/-- SNE Vx, Vy with a malformed low nibble (R125): a warning naming the word, then as R124 (D17, log 17). -/
def execSneRegLowN (x y : Reg) (n : Nibble) (s : State) : Result :=
  skipIf (s.getV x != s.getV y) (callTrace (.warn9XYN (encodeWord (.sneRegLowN x y n))) s)

end Sys2Proof.Machine
end

