-- ==== Sys2Proof/Machine/SystemFlow.lean ====
section
/-! DEFINITION. Families 0x0, 0x1, 0x2: clear, return, jump, call (40_system_and_flow.md). -/

namespace Sys2Proof.Machine

/-- CLS (R100): one call of the display port. -/
def execCls (s : State) : Result := .next (callClearScreen s).advance

/-- RET (R101): PC is the popped address plus 2, since CALL pushes its own address (C4, log 24). -/
def execRet (s : State) : Result := popThen s fun w t => .next (t.setPc (w + 2#16))

/-- JP nnn (R102). -/
def execJp (nnn : Addr12) (s : State) : Result := .next (s.setPc (zextAddr nnn))

/-- CALL nnn (R103): pushes the address of the CALL itself. -/
def execCall (nnn : Addr12) (s : State) : Result :=
  pushThen s.pc s fun t => .next (t.setPc (zextAddr nnn))

end Sys2Proof.Machine
end

