-- ==== Sys2Proof/Machine/Step.lean ====
section
/-! DEFINITION. One step of the CORE (00_scope.md R9; 10_state.md R40). -/

namespace Sys2Proof.Machine

/-- One invocation of the engine: the timer driver's turn, the fetch, the decode, and the instruction,
or one fault reset. A state with SP outside 0..16 is outside the spec and refused (R30, D20). -/
def step (s : State) : Host.Outcome State Fault Refusal :=
  if spInRange s then
    match fetchDecode (beginStep s) with
    | .faults k => raiseFault k (beginStep s)
    | .instr i => exec i (beginStep s)
  else .refused .spOutOfRange

/-- The state with an opcode-table word stored where the next step fetches (log 27). -/
def State.withFetchWord (s : State) (nbits w : Nat) : State := placeWord s (tableWord nbits w)

end Sys2Proof.Machine
end

