-- ==== Sys2Proof/Machine/HostPort.lean ====
section
/-! DEFINITION. What the host may do to the CORE between steps: the state accessors (10_state.md R41),
the full reset (R47, 70_reset_and_hazards.md R251), and loading a program (20_memory.md R58, R253).
The reads are the fields of State and `State.getV`. No step calls these (D24, log 20). -/

namespace Sys2Proof.Machine

/-- The answer of an accessor: a value, or an error to the host, which runs no fault reset (R41, D20). -/
inductive HostReply (α : Type) where
  | ok (a : α)
  /-- The address is above 0xFFF (R41). -/
  | rangeError
  /-- The program image is longer than 3584 bytes (R58). -/
  | imageTooLong
  /-- The sprites are not the sixteen digits of 5 bytes each (R253). -/
  | fontWrongSize
  deriving DecidableEq, Repr

/-- Read M[a]; an address above 0xFFF is a range error (R41). -/
def hostReadMem (a : Nat) (s : State) : HostReply Byte :=
  if a ≤ 0xFFF then .ok (s.mem.read a) else .rangeError

/-- Write M[a]; an address above 0xFFF is a range error and changes nothing (R41). -/
def hostWriteMem (a : Nat) (b : Byte) (s : State) : HostReply State :=
  if a ≤ 0xFFF then .ok { s with mem := s.mem.write a b } else .rangeError

/-- Write V[r]. -/
def hostSetV (r : Reg) (b : Byte) (s : State) : State := s.setV r b

/-- Write I. -/
def hostSetI (w : Word) (s : State) : State := s.setI w

/-- Write PC; any value (R25). -/
def hostSetPc (w : Word) (s : State) : State := s.setPc w

/-- Write SP. A value above 16 gives a state the model refuses to step (D20, log 19). -/
def hostSetSp (n : Nat) (s : State) : State := { s with sp := n }

/-- Write S[j]. -/
def hostSetStack (j : Fin 16) (w : Word) (s : State) : State :=
  { s with stack := s.stack.set j.val w j.isLt }

/-- Write DT. -/
def hostSetDt (b : Byte) (s : State) : State := { s with dt := b }

/-- Write ST. -/
def hostSetSt (b : Byte) (s : State) : State := { s with st := b }

/-- One tick of DT by the timer driver (R236, the timer port R46). Every step admits any number of
ticks before its instruction (`beginStep`, log 3); this is one alone, after a run has ended. -/
def tickDelayTimer (s : State) : State := { s with dt := timerTick s.dt }

/-- One tick of ST by the timer driver (R236). -/
def tickSoundTimer (s : State) : State := { s with st := timerTick s.st }

/-- Full reset: the values of construction (R251), DT and ST among them (D14, log 16). The model's own
record and counters go on. -/
def fullReset (s : State) : State :=
  { State.reset with portLog := s.portLog, draws := s.draws, steps := s.steps }

/-- Where a program image is loaded (R58). -/
def loadAddress : Nat := 0x200

/-- The loader's contract: the image at 0x200, rejected above MEM_SIZE − 0x200 = 3584 bytes (R58, R253). -/
def loadImage (image : List Byte) (s : State) : HostReply State :=
  if image.length ≤ memSize - loadAddress then
    .ok { s with mem := s.mem.writeBytes loadAddress image }
  else .imageTooLong

/-- The host's load of the sixteen 5-byte digit sprites at FONT_BASE (R253 item 2, D5). The bytes are
the host's. -/
def loadFont (sprites : List Byte) (s : State) : HostReply State :=
  if sprites.length = 80 then .ok { s with mem := s.mem.writeBytes Config.fontBase.val sprites }
  else .fontWrongSize

/-- The conventional digit sprites, 0 to F, as a host may load them (G8; PRESUMED, log 28). -/
def conventionalFont : List Byte :=
  [0xF0#8, 0x90#8, 0x90#8, 0x90#8, 0xF0#8] ++ [0x20#8, 0x60#8, 0x20#8, 0x20#8, 0x70#8]
    ++ [0xF0#8, 0x10#8, 0xF0#8, 0x80#8, 0xF0#8] ++ [0xF0#8, 0x10#8, 0xF0#8, 0x10#8, 0xF0#8]
    ++ [0x90#8, 0x90#8, 0xF0#8, 0x10#8, 0x10#8] ++ [0xF0#8, 0x80#8, 0xF0#8, 0x10#8, 0xF0#8]
    ++ [0xF0#8, 0x80#8, 0xF0#8, 0x90#8, 0xF0#8] ++ [0xF0#8, 0x10#8, 0x20#8, 0x40#8, 0x40#8]
    ++ [0xF0#8, 0x90#8, 0xF0#8, 0x90#8, 0xF0#8] ++ [0xF0#8, 0x90#8, 0xF0#8, 0x10#8, 0xF0#8]
    ++ [0xF0#8, 0x90#8, 0xF0#8, 0x90#8, 0x90#8] ++ [0xE0#8, 0x90#8, 0xE0#8, 0x90#8, 0xE0#8]
    ++ [0xF0#8, 0x80#8, 0x80#8, 0x80#8, 0xF0#8] ++ [0xE0#8, 0x90#8, 0x90#8, 0x90#8, 0xE0#8]
    ++ [0xF0#8, 0x80#8, 0xF0#8, 0x80#8, 0xF0#8] ++ [0xF0#8, 0x80#8, 0xF0#8, 0x80#8, 0x80#8]

/-- Load the font where the program needs one. -/
def loadFontIfAny (font : Option (List Byte)) (s : State) : HostReply State :=
  match font with
  | none => .ok s
  | some sprites => loadFont sprites s

/-- R253's launch, in its order: the image, the font if the program uses LD F, then PC to 0x200 (D4, log 7). -/
def boot (image : List Byte) (font : Option (List Byte)) (s : State) : HostReply State :=
  match loadImage image s with
  | .ok t =>
    match loadFontIfAny font t with
    | .ok u => .ok (hostSetPc (BitVec.ofNat 16 loadAddress) u)
    | .rangeError => .rangeError
    | .imageTooLong => .imageTooLong
    | .fontWrongSize => .fontWrongSize
  | .rangeError => .rangeError
  | .imageTooLong => .imageTooLong
  | .fontWrongSize => .fontWrongSize

end Sys2Proof.Machine
end

