-- ==== Sys2Proof/Safety.lean ====
section
/-! DEFINITION. What counts as a good state and a safe run, and what "unchanged" means, in the terms
the claims use. -/

namespace Sys2Proof.Machine

/-- The data model's invariant: SP in [0, 16] (10_state.md R27, R30) and memory in its canonical form
over the 4096 cells (R32, log 32). -/
abbrev State.Inv (s : State) : Prop := s.sp ≤ 16 ∧ s.mem.wf = true

/-! ### Frames: what stays from `s` to `t` -/

/-- Every general register but the listed ones. -/
def KeepsV (except : List Reg) (s t : State) : Prop := ∀ j : Reg, j ∉ except → t.getV j = s.getV j

/-- Every byte of memory. -/
def KeepsMem (s t : State) : Prop := ∀ a : Nat, t.mem.read a = s.mem.read a

/-- Every byte of memory outside the `n` bytes at `a`. -/
def KeepsMemOutside (a n : Nat) (s t : State) : Prop :=
  ∀ c : Nat, (c < a ∨ a + n ≤ c) → t.mem.read c = s.mem.read c

/-- The index register. -/
def KeepsI (s t : State) : Prop := t.i = s.i

/-- Every entry of the call stack, live or dead. -/
def KeepsEntries (s t : State) : Prop := ∀ j : Fin 16, t.stack.get j = s.stack.get j

/-- The call stack and its pointer. -/
def KeepsStack (s t : State) : Prop := t.sp = s.sp ∧ KeepsEntries s t

/-- Both timers, and the count of steps that selects the driver's ticks. -/
def KeepsTimers (s t : State) : Prop := t.dt = s.dt ∧ t.st = s.st ∧ t.steps = s.steps

/-- No port is called: the record of the calls and the count of answers stay. -/
def KeepsPorts (s t : State) : Prop := t.portLog = s.portLog ∧ t.draws = s.draws

/-- Nothing but PC and the listed general registers changes, and no port is called. -/
def ChangesOnlyRegs (regs : List Reg) (s t : State) : Prop :=
  KeepsV regs s t ∧ KeepsI s t ∧ KeepsMem s t ∧ KeepsStack s t ∧ KeepsTimers s t ∧ KeepsPorts s t

/-- PC moves on by `d`. An instruction runs only from PC <= 0xFFE (20_memory.md R54), where the sum
stays within 16 bits; the wrap above (D3, log 6) is stated apart, in PcUpdateKinds. -/
def MovesPcBy (d : Nat) (s t : State) : Prop := s.pc.toNat ≤ 0xFFE → t.pc.toNat = s.pc.toNat + d

/-- PC, I and SP are 0, the trace names the kind, and nothing else of the state changes: what the
fault reset leaves (60_exceptions.md R225). -/
def IsFaultReset (k : FaultKind) (s t : State) : Prop :=
  t.pc = 0#16 ∧ t.i = 0#16 ∧ t.sp = 0 ∧ t.portLog = .trace (.faultTrace k) :: s.portLog
    ∧ t.draws = s.draws ∧ KeepsV [] s t ∧ KeepsMem s t ∧ KeepsEntries s t ∧ KeepsTimers s t

/-! ### Faults seen through the trace port (60_exceptions.md R228) -/

/-- Is this call the diagnostic of a fault reset? -/
def PortEvent.isFault (e : PortEvent) : Bool :=
  match e with
  | .trace (.faultTrace _) => true
  | .trace (.warn9XYN _) | .clearScreen | .drawSprite _ _ _ _ | .keyQuery _ _ | .randomDraw _ => false

/-- Is this a call of the display or input hook (D26)? -/
def PortEvent.isHookCall (e : PortEvent) : Bool :=
  match e with
  | .clearScreen | .drawSprite _ _ _ _ | .keyQuery _ _ => true
  | .randomDraw _ | .trace _ => false

/-- How many fault resets have run. -/
def State.faultCount (s : State) : Nat := s.portLog.countP PortEvent.isFault

/-- How many times the display and input hooks have been called. -/
def State.hookCount (s : State) : Nat := s.portLog.countP PortEvent.isHookCall

/-- The instruction rows of R221: which instruction raises which fault, and when. "No other
instruction can fault once decoded." -/
def ownFault (i : Instr) (s : State) : Option FaultKind :=
  match i with
  | .ret => if s.sp = 0 then some .stackUnderflow else none
  | .call _ => if s.sp = 16 then some .stackOverflow else none
  | .ldMemStore x => if s.i.toNat + x.val > 0xFFF then some .addressRangeFault else none
  | .ldMemLoad x => if s.i.toNat + x.val > 0xFFF then some .addressRangeFault else none
  | .ldB _ => if s.i.toNat + 2 > 0xFFF then some .addressRangeFault else none
  | .drw _ _ n =>
    if n.toNat ≥ 1 ∧ s.i.toNat + n.toNat - 1 > 0xFFF then some .addressRangeFault else none
  | _ => none

/-- R221 whole, in the order of R229: the fetch test, then decode, then the instruction's own test. -/
def stepFault (s : State) : Option FaultKind :=
  if s.pc.toNat > 0xFFE then some .addressRangeFault
  else
    match decode [s.mem.read s.pc.toNat, s.mem.read (s.pc.toNat + 1)] with
    | .illegal _ => some .decodeFault
    | .instr i => ownFault i s

/-- The registers R23 lets an instruction write, the flag register of R22 among them. -/
def writtenRegs (i : Instr) : List Reg :=
  match i with
  | .ldImm x _ | .addImm x _ | .ldReg x _ | .orReg x _ | .andReg x _ | .xorReg x _ | .rnd x _
  | .ldVxDT x => [x]
  | .addReg x _ | .sub x _ | .shr x _ | .subn x _ | .shl x _ => [x, 0xF]
  | .drw _ _ _ => [0xF]
  | .ldMemLoad x => (List.finRange 16).filter (· ≤ x)
  | _ => []

/-- The hook calls D26 gives an instruction that does not fault. -/
def hookCallsOf (i : Instr) : Nat :=
  match i with
  | .cls | .drw _ _ _ | .skp _ | .sknp _ => 1
  | _ => 0

/-- Does this instruction store to memory (20_memory.md R50)? -/
def writesMemory (i : Instr) : Bool :=
  match i with
  | .ldB _ | .ldMemStore _ => true
  | _ => false

end Sys2Proof.Machine
end

