-- ==== Sys2Proof/Certificates/Slice0/Obligations.lean ====
section
/-! DEFINITION. The statements for the provers. A value that rests on a decision of the spec (D<n>) or
on the model's own choice is named as such, with its log entry; such a statement is 'derived'. A call
across a port is seen in the model's own record of the calls, `portLog`, newest first (log 18). -/

open Sys2Proof Sys2Proof.Machine

/-! ### Encoding -/

/-- Words written out from the encodings of opcode_table.json, one for each of the sixteen families,
decode to the instruction they stand for, and 0x0000 (R76) and 0xF00A (R80) to none. -/
def Obligations.SpecWordsDecodeAsTheirRows : Prop :=
  decodeWord 0x00E0#16 = .instr .cls ∧ decodeWord 0x1234#16 = .instr (.jp 0x234#12)
    ∧ decodeWord 0x2210#16 = .instr (.call 0x210#12) ∧ decodeWord 0x3A05#16 = .instr (.seImm 0xA 0x05#8)
    ∧ decodeWord 0x4106#16 = .instr (.sneImm 1 0x06#8) ∧ decodeWord 0x5120#16 = .instr (.seReg 1 2)
    ∧ decodeWord 0x6005#16 = .instr (.ldImm 0 0x05#8) ∧ decodeWord 0xA123#16 = .instr (.ldI 0x123#12)
    ∧ decodeWord 0x7303#16 = .instr (.addImm 3 0x03#8) ∧ decodeWord 0x8235#16 = .instr (.sub 2 3)
    ∧ decodeWord 0x9121#16 = .instr (.sneRegLowN 1 2 0x1#4) ∧ decodeWord 0xB300#16 = .instr (.jpV0 0x300#12)
    ∧ decodeWord 0xC20F#16 = .instr (.rnd 2 0x0F#8) ∧ decodeWord 0xD012#16 = .instr (.drw 0 1 0x2#4)
    ∧ decodeWord 0xE5A1#16 = .instr (.sknp 5) ∧ decodeWord 0xF265#16 = .instr (.ldMemLoad 2)
    ∧ decodeWord 0x0000#16 = .illegal .family0 ∧ decodeWord 0xF00A#16 = .illegal .familyFLowByte

/-- Decode and encode agree, with every operand at every value: the bytes of a well-formed instruction
decode to it. -/
def Obligations.DecodeOfEncodeIsIdentity : Prop :=
  ∀ i : Instr, i.wellFormed = true → decode (encode i) = .instr i

/-- The other direction: a word that decodes to an instruction is that instruction's word, so no two
instructions share a word and no bit of a word is lost (R74). -/
def Obligations.LegalWordIsTheWordOfItsInstruction : Prop :=
  ∀ (w : Word) (i : Instr), decodeWord w = .instr i → i.wellFormed = true ∧ encodeWord i = w

/-- The illegal words are exactly those of R76, R77, R79 and R80; every other word is an instruction (R74). -/
def Obligations.IllegalWordsAreExactlyTheListed : Prop :=
  ∀ w : Word, (∃ why, decodeWord w = .illegal why) ↔
    ((w.toNat / 4096 = 0x0 ∧ w.toNat ≠ 0x00E0 ∧ w.toNat ≠ 0x00EE)
      ∨ (w.toNat / 4096 = 0x5 ∧ w.toNat % 16 ≠ 0)
      ∨ (w.toNat / 4096 = 0x8 ∧ w.toNat % 16 ∈ [0x8, 0x9, 0xA, 0xB, 0xC, 0xD, 0xF])
      ∨ (w.toNat / 4096 = 0xE ∧ w.toNat % 256 ∉ [0x9E, 0xA1])
      ∨ (w.toNat / 4096 = 0xF
          ∧ w.toNat % 256 ∉ [0x07, 0x15, 0x18, 0x1E, 0x29, 0x33, 0x55, 0x65]))

/-! ### The step -/

/-- A step runs the decoded instruction: where the two bytes at PC decode to `i`, the step is `exec i`
on the state after the timer driver's turn (`beginStep`; D15, log 3). -/
def Obligations.StepRunsTheDecodedInstruction : Prop :=
  ∀ (s : State) (i : Instr), s.sp ≤ 16 → s.pc.toNat ≤ 0xFFE →
    decode [s.mem.read s.pc.toNat, s.mem.read (s.pc.toNat + 1)] = .instr i →
    step s = exec i (beginStep s)

/-- What the step adds before the instruction: some number of single ticks of DT and some number of ST,
each tick one less and stopping at 0, and nothing else but the model's own count of steps. The free
counts and the stop at 0 are D15 and G5 (log 3). -/
def Obligations.TimerDriverTicksBeforeTheInstruction : Prop :=
  ∀ s : State,
    (∃ m : Nat, (beginStep s).dt = timerTick^[m] s.dt) ∧ (∃ n : Nat, (beginStep s).st = timerTick^[n] s.st)
    ∧ (∀ b : Byte, (timerTick b).toNat = b.toNat - 1)
    ∧ (beginStep s).pc = s.pc ∧ (beginStep s).steps = s.steps + 1
    ∧ KeepsV [] s (beginStep s) ∧ KeepsI s (beginStep s) ∧ KeepsMem s (beginStep s)
    ∧ KeepsStack s (beginStep s) ∧ KeepsPorts s (beginStep s)

/-- A fetch with PC above 0xFFE faults, before anything is read (R54; that it faults and does not wrap
is D1, log 4). -/
def Obligations.FetchPastTheBoundTakesTheRangeFault : Prop :=
  ∀ s : State, s.sp ≤ 16 → 0xFFE < s.pc.toNat →
    ∃ t, step s = .next t ∧ IsFaultReset .addressRangeFault (beginStep s) t

/-- A step at an illegal word takes the DecodeFault: any 0x0NNN other than 00E0 and 00EE, 0x0000 among
them (R76), any 5XYN with N != 0 (R77), any EXNN or FXNN outside the table (R80). -/
def Obligations.IllegalWordTakesTheDecodeFault : Prop :=
  ∀ (s : State) (w : Word), s.sp ≤ 16 → s.pc.toNat ≤ 0xFFE →
    w.toNat = (s.mem.read s.pc.toNat).toNat * 256 + (s.mem.read (s.pc.toNat + 1)).toNat →
    ((w.toNat / 4096 = 0x0 ∧ w.toNat ≠ 0x00E0 ∧ w.toNat ≠ 0x00EE)
      ∨ (w.toNat / 4096 = 0x5 ∧ w.toNat % 16 ≠ 0)
      ∨ (w.toNat / 4096 = 0xE ∧ w.toNat % 256 ∉ [0x9E, 0xA1])
      ∨ (w.toNat / 4096 = 0xF
          ∧ w.toNat % 256 ∉ [0x07, 0x15, 0x18, 0x1E, 0x29, 0x33, 0x55, 0x65])) →
    ∃ t, step s = .next t ∧ t.pc = 0#16 ∧ t.i = 0#16 ∧ t.sp = 0
      ∧ t.portLog = .trace (.faultTrace .decodeFault) :: s.portLog
      ∧ KeepsV [] s t ∧ KeepsMem s t ∧ KeepsEntries s t

/-- A state with SP outside 0..16 is outside the spec, and the model refuses to step it (R30, D20, log 19). -/
def Obligations.StackPointerOutOfRangeIsRefused : Prop :=
  ∀ s : State, 16 < s.sp → step s = .refused .spOutOfRange

/-- The fault reset (R225): PC, I and SP become 0, the trace names the kind, M, V, S, DT and ST are
unchanged, and the step returns normally. -/
def Obligations.FaultResetWipesOnlyPcIndexAndSp : Prop :=
  ∀ (k : FaultKind) (s : State), ∃ t, raiseFault k s = .next t
    ∧ t.pc = 0#16 ∧ t.i = 0#16 ∧ t.sp = 0 ∧ t.portLog = .trace (.faultTrace k) :: s.portLog
    ∧ KeepsMem s t ∧ KeepsV [] s t ∧ KeepsEntries s t ∧ t.dt = s.dt ∧ t.st = s.st

/-- Every step keeps SP in [0, 16] (R30) and the memory in its canonical form over 4096 cells (log 32). -/
def Obligations.EveryStepKeepsTheStateInvariant : Prop :=
  ∀ s t : State, s.Inv → step s = .next t → t.Inv

/-- The state after reset meets that invariant. -/
def Obligations.ResetStateMeetsTheStateInvariant : Prop := State.reset.Inv

/-- The core never halts (R40, R241, R259): from every state that meets the invariant, any number of
steps answers a next state, which meets it again. -/
def Obligations.NoRunEverStops : Prop :=
  ∀ (n : Nat) (s : State), s.Inv → ∃ t : State, Sys2Proof.core.run n s = .next t ∧ t.Inv

/-- Construction zeroes every piece of state (R250). -/
def Obligations.ConstructionLeavesEverythingZero : Prop :=
  (∀ a : Nat, State.reset.mem.read a = 0#8) ∧ (∀ r : Reg, State.reset.getV r = 0#8)
    ∧ State.reset.i = 0#16 ∧ State.reset.pc = 0#16 ∧ (∀ j : Fin 16, State.reset.stack.get j = 0#16)
    ∧ State.reset.sp = 0 ∧ State.reset.dt = 0#8 ∧ State.reset.st = 0#8

/-- An illegal word at 0x000 is a livelock (R230, R254): from PC = 0 each of `n` steps faults once
more, and neither memory nor the registers ever change. -/
def Obligations.IllegalWordAtZeroFaultsForever : Prop :=
  ∀ (n : Nat) (s : State) (why : IllegalWord), s.sp ≤ 16 → s.pc = 0#16 →
    decode [s.mem.read 0, s.mem.read 1] = .illegal why →
    ∃ t : State, Sys2Proof.core.run n s = .next t ∧ t.pc = 0#16 ∧ t.faultCount = s.faultCount + n
      ∧ KeepsV [] s t ∧ KeepsMem s t ∧ (0 < n → t.i = 0#16 ∧ t.sp = 0)

/-- The model's own `withFetchWord` (log 27): the next step runs exactly the placed instruction. -/
def Obligations.PlacedWordIsRunByTheNextStep : Prop :=
  ∀ (s : State) (nbits w : Nat) (i : Instr), s.Inv → decodeTableWord nbits w = some i →
    step (s.withFetchWord nbits w) = exec i (beginStep (s.withFetchWord nbits w))

/-- What FX55 and FX33 store is what a later fetch there reads (R63): after the store, a PC at any two
neighbouring stored cells fetches the two stored bytes, high byte first. -/
def Obligations.StoredBytesAreSeenByTheNextFetch : Prop :=
  (∀ (s : State) (x : Reg), s.mem.wf = true → s.i.toNat + x.val ≤ 0xFFF →
    ∃ t, exec (.ldMemStore x) s = .next t ∧ ∀ j k : Reg, k.val = j.val + 1 → k ≤ x →
      fetch (t.setPc (BitVec.ofNat 16 (s.i.toNat + j.val))) = some [s.getV j, s.getV k])
  ∧ (∀ (s : State) (x : Reg), s.mem.wf = true → s.i.toNat + 2 ≤ 0xFFF →
    ∃ t, exec (.ldB x) s = .next t
      ∧ fetch (t.setPc s.i)
          = some [BitVec.ofNat 8 ((s.getV x).toNat / 100), BitVec.ofNat 8 ((s.getV x).toNat / 10 % 10)]
      ∧ fetch (t.setPc (s.i + 1#16))
          = some [BitVec.ofNat 8 ((s.getV x).toNat / 10 % 10), BitVec.ofNat 8 ((s.getV x).toNat % 10)])

/-! ### Rules of the whole machine -/

/-- No instruction but CALL writes a stack entry, and none but CALL and RET moves SP, other than by the
fault reset (R27). That RET leaves the popped entry as it was is the spec's decision D13 (log 15). -/
def Obligations.OnlyCallAndReturnReachTheStack : Prop :=
  ∀ (i : Instr) (s t : State), exec i s = .next t → (∀ nnn, i ≠ .call nnn) →
    KeepsEntries s t ∧ (i ≠ .ret → t.sp = s.sp ∨ ∃ k, IsFaultReset k s t)

/-- No instruction but FX33 and FX55 writes memory (R50). -/
def Obligations.OnlyTheTwoStoresWriteMemory : Prop :=
  ∀ (i : Instr) (s t : State), exec i s = .next t → writesMemory i = false → KeepsMem s t

/-- An instruction writes no general register but those R23 and R22 name for it. -/
def Obligations.OnlyTheListedRegistersAreWritten : Prop :=
  ∀ (i : Instr) (s t : State), exec i s = .next t → KeepsV (writtenRegs i) s t

/-- I changes only by ANNN, FX1E, FX29 and the fault reset (R26); DT only by FX15 and ST only by FX18 (R31). -/
def Obligations.OnlyTheirWritersChangeIndexAndTimers : Prop :=
  ∀ (i : Instr) (s t : State), exec i s = .next t →
    (t.i ≠ s.i → (∃ nnn, i = .ldI nnn) ∨ (∃ x, i = .addI x) ∨ (∃ x, i = .ldF x)
      ∨ ∃ k, IsFaultReset k s t)
    ∧ (t.dt ≠ s.dt → ∃ x, i = .ldDTVx x) ∧ (t.st ≠ s.st → ∃ x, i = .ldSTVx x)

/-- Each instruction that does not fault ends in exactly one of the PC updates of R24: an explicit
target, +2 or +4 (the skips), or +2; all mod 2^16 (D3, log 6). The targets are nnn (JP R102, CALL
R103), V0 + nnn (JP V0, R171), and the popped entry plus 2 (RET, R101; the 2 is C4, log 24). -/
def Obligations.PcUpdateKinds : Prop :=
  ∀ (i : Instr) (s t : State), exec i s = .next t → t.faultCount = s.faultCount →
    match i with
    | .jp nnn | .call nnn => t.pc.toNat = nnn.toNat
    | .jpV0 nnn => t.pc.toNat = (s.getV 0).toNat + nnn.toNat
    | .ret => ∃ j : Fin 16, j.val + 1 = s.sp ∧ t.pc = s.stack.get j + 2#16
    | .seImm _ _ | .sneImm _ _ | .seReg _ _ | .sneReg _ _ | .sneRegLowN _ _ _ | .skp _ | .sknp _ =>
      t.pc = s.pc + 2#16 ∨ t.pc = s.pc + 4#16
    | _ => t.pc = s.pc + 2#16

/-- The faults are exactly those of R221, in the order of R229: a step takes the fault reset of the
first condition that holds, and where none holds it runs no fault reset at all. The fetch, FX33 and
DXYN rows are D1, D11 and D10 (logs 4, 13, 12). -/
def Obligations.FaultsExactlyUnderTheirConditions : Prop :=
  ∀ s : State, s.sp ≤ 16 → ∃ t, step s = .next t
    ∧ (∀ k, stepFault s = some k → IsFaultReset k (beginStep s) t)
    ∧ (stepFault s = none → t.faultCount = s.faultCount)

/-- Faults are precise (R226): whenever a step runs a fault reset, the state after it is the state
before the step with PC, I and SP set to 0. The timers are those after the timer driver's turn, which
comes before the step (log 3). -/
def Obligations.FaultsArePrecise : Prop :=
  ∀ s t : State, step s = .next t → s.faultCount < t.faultCount →
    t.pc = 0#16 ∧ t.i = 0#16 ∧ t.sp = 0 ∧ KeepsV [] s t ∧ KeepsMem s t ∧ KeepsEntries s t
      ∧ t.dt = (beginStep s).dt ∧ t.st = (beginStep s).st

/-- One hook call per executed 00E0, DXYN, EX9E, EXA1, none for any other instruction and none when the
instruction faults (D26, log 18). -/
def Obligations.HookCallsPerInstruction : Prop :=
  ∀ (i : Instr) (s t : State), exec i s = .next t →
    t.hookCount = s.hookCount + (if t.faultCount = s.faultCount then hookCallsOf i else 0)

/-! ### Families 0x0, 0x1, 0x2 -/

/-- CLS (R100): one call of clear_screen (that it is exactly one is D26, log 18), PC + 2, and nothing
else of the core changes. -/
def Obligations.ClearScreenCallsTheDisplayOnce : Prop :=
  ∀ s : State, ∃ t, exec .cls s = .next t ∧ t.portLog = .clearScreen :: s.portLog ∧ MovesPcBy 2 s t
    ∧ KeepsV [] s t ∧ KeepsI s t ∧ KeepsMem s t ∧ KeepsStack s t ∧ KeepsTimers s t
    ∧ t.draws = s.draws

/-- RET (R101): SP - 1 and PC is the popped entry plus 2 (C4, log 24), mod 2^16 (D3, log 6); the entry
keeps its value (D13, log 15). With SP = 0, StackUnderflow. -/
def Obligations.ReturnPopsAndLandsPastTheCall : Prop :=
  ∀ s : State,
    (∀ j : Fin 16, s.sp = j.val + 1 → ∃ t, exec .ret s = .next t ∧ t.sp = j.val
      ∧ t.pc = s.stack.get j + 2#16 ∧ KeepsEntries s t ∧ KeepsV [] s t ∧ KeepsI s t ∧ KeepsMem s t
      ∧ KeepsTimers s t ∧ KeepsPorts s t)
    ∧ (s.sp = 0 → ∃ t, exec .ret s = .next t ∧ IsFaultReset .stackUnderflow s t)

/-- JP nnn (R102): PC is exactly nnn, and nothing else changes. -/
def Obligations.JumpSetsPcExactly : Prop :=
  ∀ (nnn : Addr12) (s : State), ∃ t, exec (.jp nnn) s = .next t ∧ t.pc.toNat = nnn.toNat
    ∧ ChangesOnlyRegs [] s t

/-- CALL nnn (R103): the CALL's own address goes to S[SP] (C4, log 24), SP + 1, PC is nnn; with
SP = 16, and only there, StackOverflow and no entry is written (C2, log 24). -/
def Obligations.CallPushesItsOwnAddress : Prop :=
  ∀ (nnn : Addr12) (s : State),
    (s.sp < 16 → ∃ t, exec (.call nnn) s = .next t ∧ t.pc.toNat = nnn.toNat ∧ t.sp = s.sp + 1
      ∧ (∀ j : Fin 16, t.stack.get j = if j.val = s.sp then s.pc else s.stack.get j)
      ∧ KeepsV [] s t ∧ KeepsI s t ∧ KeepsMem s t ∧ KeepsTimers s t ∧ KeepsPorts s t)
    ∧ (s.sp = 16 → ∃ t, exec (.call nnn) s = .next t ∧ IsFaultReset .stackOverflow s t)

/-- A CALL and the RET at its target, two steps (the source's E2; C4, log 24): PC is the CALL's address plus 2 and
SP, I, the registers and memory are as before. -/
def Obligations.CallThenReturnRoundTrip : Prop :=
  ∀ (s : State) (nnn : Addr12), s.sp < 16 → s.pc.toNat ≤ 0xFFE → nnn.toNat ≤ 0xFFE →
    decode [s.mem.read s.pc.toNat, s.mem.read (s.pc.toNat + 1)] = .instr (.call nnn) →
    decode [s.mem.read nnn.toNat, s.mem.read (nnn.toNat + 1)] = .instr .ret →
    ∃ t u, step s = .next t ∧ step t = .next u ∧ u.pc.toNat = s.pc.toNat + 2 ∧ u.sp = s.sp
      ∧ KeepsV [] s u ∧ KeepsI s u ∧ KeepsMem s u

/-- A CALL to itself (the source's E9): the first 16 steps from SP = 0 each push the CALL's address,
and the 17th takes StackOverflow, with every entry kept (C2, C4, log 24). -/
def Obligations.SelfCallFillsTheStackThenOverflows : Prop :=
  ∀ (s : State) (nnn : Addr12), s.sp = 0 → s.pc.toNat = nnn.toNat → nnn.toNat ≤ 0xFFE →
    decode [s.mem.read s.pc.toNat, s.mem.read (s.pc.toNat + 1)] = .instr (.call nnn) →
    (∀ n : Nat, n ≤ 16 → ∃ t : State, Sys2Proof.core.run n s = .next t ∧ t.sp = n ∧ t.pc = s.pc
      ∧ t.faultCount = s.faultCount ∧ (∀ j : Fin 16, j.val < n → t.stack.get j = s.pc))
    ∧ ∃ t : State, Sys2Proof.core.run 17 s = .next t ∧ t.pc = 0#16 ∧ t.i = 0#16 ∧ t.sp = 0
      ∧ t.portLog = .trace (.faultTrace .stackOverflow) :: s.portLog
      ∧ (∀ j : Fin 16, t.stack.get j = s.pc)

/-- A jump to itself idles (R102, R259): the step changes nothing but what the timer driver's turn
changes (D15, log 3). -/
def Obligations.SelfJumpIdles : Prop :=
  ∀ (s : State) (nnn : Addr12), s.sp ≤ 16 → s.pc.toNat = nnn.toNat → nnn.toNat ≤ 0xFFE →
    decode [s.mem.read s.pc.toNat, s.mem.read (s.pc.toNat + 1)] = .instr (.jp nnn) →
    step s = .next (beginStep s)

/-! ### Families 0x3, 0x4, 0x5, 0x9 -/

/-- SE Vx, nn (R121) and SNE Vx, nn (R122): PC + 4 when the condition holds, else PC + 2; no register
or flag is written. -/
def Obligations.SkipsOnAnImmediate : Prop :=
  ∀ (x : Reg) (nn : Byte) (s : State),
    (∃ t, exec (.seImm x nn) s = .next t ∧ ChangesOnlyRegs [] s t
      ∧ MovesPcBy (if s.getV x = nn then 4 else 2) s t)
    ∧ (∃ t, exec (.sneImm x nn) s = .next t ∧ ChangesOnlyRegs [] s t
      ∧ MovesPcBy (if s.getV x = nn then 2 else 4) s t)

/-- SE Vx, Vy (R123) and SNE Vx, Vy (R124); a step at 5XYN with N != 0 takes the DecodeFault. -/
def Obligations.SkipsOnTwoRegisters : Prop :=
  ∀ (x y : Reg) (s : State),
    (∃ t, exec (.seReg x y) s = .next t ∧ ChangesOnlyRegs [] s t
      ∧ MovesPcBy (if s.getV x = s.getV y then 4 else 2) s t)
    ∧ (∃ t, exec (.sneReg x y) s = .next t ∧ ChangesOnlyRegs [] s t
      ∧ MovesPcBy (if s.getV x = s.getV y then 2 else 4) s t)
    ∧ (∀ n : Nibble, n ≠ 0#4 → s.sp ≤ 16 → fetch s = some (bytesOfWord (formXYN 0x5#4 x y n)) →
      ∃ t, step s = .next t ∧ t.pc = 0#16 ∧ t.i = 0#16 ∧ t.sp = 0
        ∧ t.portLog = .trace (.faultTrace .decodeFault) :: s.portLog)

/-- 9XYN with N != 0 (R125): one warning naming the word, no fault, and then the skip of 9XY0 (D17,
log 17). -/
def Obligations.ToleratedLowNibbleWarnsAndSkips : Prop :=
  ∀ (x y : Reg) (n : Nibble) (s : State), n ≠ 0#4 →
    ∃ t w, exec (.sneRegLowN x y n) s = .next t ∧ decodeWord w = .instr (.sneRegLowN x y n)
      ∧ t.portLog = .trace (.warn9XYN w) :: s.portLog
      ∧ MovesPcBy (if s.getV x = s.getV y then 2 else 4) s t
      ∧ KeepsV [] s t ∧ KeepsI s t ∧ KeepsMem s t ∧ KeepsStack s t ∧ KeepsTimers s t
      ∧ t.draws = s.draws ∧ t.faultCount = s.faultCount

/-! ### Families 0x6, 0x7, 0x8 -/

/-- LD Vx, nn (R141) and ADD Vx, nn (R142): VF is not written unless x = 0xF. -/
def Obligations.LoadAndAddAnImmediate : Prop :=
  ∀ (x : Reg) (nn : Byte) (s : State),
    (∃ t, exec (.ldImm x nn) s = .next t ∧ t.getV x = nn ∧ MovesPcBy 2 s t ∧ ChangesOnlyRegs [x] s t)
    ∧ (∃ t, exec (.addImm x nn) s = .next t
      ∧ (t.getV x).toNat = ((s.getV x).toNat + nn.toNat) % 256 ∧ MovesPcBy 2 s t
      ∧ ChangesOnlyRegs [x] s t)

/-- LD Vx, Vy (R143). -/
def Obligations.CopyRegister : Prop :=
  ∀ (x y : Reg) (s : State), ∃ t, exec (.ldReg x y) s = .next t ∧ t.getV x = s.getV y
    ∧ MovesPcBy 2 s t ∧ ChangesOnlyRegs [x] s t

/-- OR, AND, XOR (R144 to R146): bit by bit, and VF keeps its value unless x = 0xF (D7, log 9). -/
def Obligations.LogicalOperationsKeepTheFlag : Prop :=
  ∀ (x y : Reg) (s : State),
    (∃ t, exec (.orReg x y) s = .next t ∧ MovesPcBy 2 s t ∧ ChangesOnlyRegs [x] s t
      ∧ ∀ k : Fin 8, (t.getV x).getLsbD k = ((s.getV x).getLsbD k || (s.getV y).getLsbD k))
    ∧ (∃ t, exec (.andReg x y) s = .next t ∧ MovesPcBy 2 s t ∧ ChangesOnlyRegs [x] s t
      ∧ ∀ k : Fin 8, (t.getV x).getLsbD k = ((s.getV x).getLsbD k && (s.getV y).getLsbD k))
    ∧ (∃ t, exec (.xorReg x y) s = .next t ∧ MovesPcBy 2 s t ∧ ChangesOnlyRegs [x] s t
      ∧ ∀ k : Fin 8, (t.getV x).getLsbD k = ((s.getV x).getLsbD k ^^ (s.getV y).getLsbD k))

/-- ADD Vx, Vy with x != 0xF (R147): the sum mod 256, and VF = 1 iff it exceeds 0xFF. y = 0xF is the
old VF. The form x = 0xF is FlagIsWrittenLast. -/
def Obligations.AddRegistersSetsTheCarry : Prop :=
  ∀ (x y : Reg) (s : State), x ≠ 0xF → ∃ t, exec (.addReg x y) s = .next t
    ∧ (t.getV x).toNat = ((s.getV x).toNat + (s.getV y).toNat) % 256
    ∧ t.getV 0xF = (if (s.getV x).toNat + (s.getV y).toNat > 0xFF then 1#8 else 0#8)
    ∧ MovesPcBy 2 s t ∧ ChangesOnlyRegs [x, 0xF] s t

/-- SUB (R148) and SUBN (R150) with x != 0xF: the difference mod 256, and VF = 1 iff the minuend is
strictly greater, so 0 on equal operands. The form x = 0xF is FlagIsWrittenLast. -/
def Obligations.SubtractionsSetTheStrictFlag : Prop :=
  ∀ (x y : Reg) (s : State), x ≠ 0xF →
    (∃ t, exec (.sub x y) s = .next t
      ∧ (t.getV x).toNat = ((s.getV x).toNat + 256 - (s.getV y).toNat) % 256
      ∧ t.getV 0xF = (if (s.getV x).toNat > (s.getV y).toNat then 1#8 else 0#8)
      ∧ MovesPcBy 2 s t ∧ ChangesOnlyRegs [x, 0xF] s t)
    ∧ (∃ t, exec (.subn x y) s = .next t
      ∧ (t.getV x).toNat = ((s.getV y).toNat + 256 - (s.getV x).toNat) % 256
      ∧ t.getV 0xF = (if (s.getV y).toNat > (s.getV x).toNat then 1#8 else 0#8)
      ∧ MovesPcBy 2 s t ∧ ChangesOnlyRegs [x, 0xF] s t)

/-- SHR (R149) and SHL (R151) with x != 0xF: in place, VF is the bit shifted out, and V[y] is neither
read nor written. The form x = 0xF is FlagIsWrittenLast. -/
def Obligations.ShiftsWorkInPlace : Prop :=
  ∀ (x y : Reg) (s : State), x ≠ 0xF →
    (∃ t, exec (.shr x y) s = .next t ∧ (t.getV x).toNat = (s.getV x).toNat / 2
      ∧ (t.getV 0xF).toNat = (s.getV x).toNat % 2 ∧ MovesPcBy 2 s t ∧ ChangesOnlyRegs [x, 0xF] s t)
    ∧ (∃ t, exec (.shl x y) s = .next t ∧ (t.getV x).toNat = (s.getV x).toNat * 2 % 256
      ∧ (t.getV 0xF).toNat = (s.getV x).toNat / 128 ∧ MovesPcBy 2 s t
      ∧ ChangesOnlyRegs [x, 0xF] s t)

/-- With x = 0xF the flag is written last, so VF holds the flag of the captured operands (R140, which
is the spec's decision D6, log 8). -/
def Obligations.FlagIsWrittenLast : Prop :=
  ∀ (y : Reg) (s : State),
    (∃ t, exec (.addReg 0xF y) s = .next t ∧ MovesPcBy 2 s t ∧ ChangesOnlyRegs [0xF] s t
      ∧ t.getV 0xF = (if (s.getV 0xF).toNat + (s.getV y).toNat > 0xFF then 1#8 else 0#8))
    ∧ (∃ t, exec (.sub 0xF y) s = .next t ∧ MovesPcBy 2 s t ∧ ChangesOnlyRegs [0xF] s t
      ∧ t.getV 0xF = (if (s.getV 0xF).toNat > (s.getV y).toNat then 1#8 else 0#8))
    ∧ (∃ t, exec (.subn 0xF y) s = .next t ∧ MovesPcBy 2 s t ∧ ChangesOnlyRegs [0xF] s t
      ∧ t.getV 0xF = (if (s.getV y).toNat > (s.getV 0xF).toNat then 1#8 else 0#8))
    ∧ (∃ t, exec (.shr 0xF y) s = .next t ∧ MovesPcBy 2 s t ∧ ChangesOnlyRegs [0xF] s t
      ∧ (t.getV 0xF).toNat = (s.getV 0xF).toNat % 2)
    ∧ (∃ t, exec (.shl 0xF y) s = .next t ∧ MovesPcBy 2 s t ∧ ChangesOnlyRegs [0xF] s t
      ∧ (t.getV 0xF).toNat = (s.getV 0xF).toNat / 128)

/-! ### Families 0xA, 0xB, 0xC -/

/-- LD I, nnn (R170) and JP V0, nnn (R171). -/
def Obligations.LoadIndexAndIndexedJump : Prop :=
  ∀ (nnn : Addr12) (s : State),
    (∃ t, exec (.ldI nnn) s = .next t ∧ t.i.toNat = nnn.toNat ∧ MovesPcBy 2 s t ∧ KeepsV [] s t
      ∧ KeepsMem s t ∧ KeepsStack s t ∧ KeepsTimers s t ∧ KeepsPorts s t)
    ∧ (∃ t, exec (.jpV0 nnn) s = .next t ∧ t.pc.toNat = (s.getV 0).toNat + nnn.toNat
      ∧ ChangesOnlyRegs [] s t)

/-- RND Vx, nn (R172): one draw of the random port, masked by nn. The statement holds whatever the
drawn byte is (D16, log 1). -/
def Obligations.RandomByteIsMasked : Prop :=
  ∀ (x : Reg) (nn : Byte) (s : State), ∃ t r, exec (.rnd x nn) s = .next t
    ∧ t.portLog = .randomDraw r :: s.portLog ∧ t.draws = s.draws + 1 ∧ t.getV x = r &&& nn
    ∧ (∀ k : Fin 8, nn.getLsbD k = false → (t.getV x).getLsbD k = false)
    ∧ MovesPcBy 2 s t ∧ KeepsV [x] s t ∧ KeepsI s t ∧ KeepsMem s t ∧ KeepsStack s t ∧ KeepsTimers s t

/-! ### Families 0xD, 0xE -/

/-- DRW (R180): with n = 0 or the whole range below 0x1000, one draw_sprite call (D26, log 18) with
V[x], V[y] unreduced (D27, log 22) and the n bytes at I, and VF is the device's answer, whatever it is (D22,
log 1). With n >= 1 and a range past 0xFFF, the range fault and no call (D10, log 12). -/
def Obligations.DrawSpriteDelegatesToTheDisplay : Prop :=
  ∀ (x y : Reg) (n : Nibble) (s : State),
    (n.toNat = 0 ∨ s.i.toNat + n.toNat - 1 ≤ 0xFFF →
      ∃ t rows c, exec (.drw x y n) s = .next t
        ∧ t.portLog = .drawSprite (s.getV x) (s.getV y) rows c :: s.portLog
        ∧ rows.length = n.toNat
        ∧ (∀ k : Nat, k < n.toNat → rows[k]? = some (s.mem.read (s.i.toNat + k)))
        ∧ t.getV 0xF = (if c then 1#8 else 0#8) ∧ t.draws = s.draws + 1 ∧ MovesPcBy 2 s t
        ∧ KeepsV [0xF] s t ∧ KeepsI s t ∧ KeepsMem s t ∧ KeepsStack s t ∧ KeepsTimers s t)
    ∧ (1 ≤ n.toNat → s.i.toNat + n.toNat - 1 > 0xFFF →
      ∃ t, exec (.drw x y n) s = .next t ∧ IsFaultReset .addressRangeFault s t)

/-- SKP (R181) and SKNP (R182): one query (D26, log 18) of the key V[x] & 0x0F (D12, log 14); on the same answer the
two skip in opposite ways, whatever the answer is (D22, log 1). -/
def Obligations.KeySkipsFollowTheKeyState : Prop :=
  ∀ (x : Reg) (s : State), ∃ (k : KeyCode) (pressed : Bool) (t u : State),
    k.val = (s.getV x).toNat % 16
    ∧ exec (.skp x) s = .next t ∧ exec (.sknp x) s = .next u
    ∧ t.portLog = .keyQuery k pressed :: s.portLog ∧ u.portLog = .keyQuery k pressed :: s.portLog
    ∧ t.draws = s.draws + 1 ∧ u.draws = s.draws + 1
    ∧ MovesPcBy (if pressed then 4 else 2) s t ∧ MovesPcBy (if pressed then 2 else 4) s u
    ∧ KeepsV [] s t ∧ KeepsI s t ∧ KeepsMem s t ∧ KeepsStack s t ∧ KeepsTimers s t
    ∧ KeepsV [] s u ∧ KeepsI s u ∧ KeepsMem s u ∧ KeepsStack s u ∧ KeepsTimers s u

/-! ### Family 0xF -/

/-- LD Vx, DT (R190), LD DT, Vx (R191) and LD ST, Vx (R192). -/
def Obligations.TimersAreReadAndWritten : Prop :=
  ∀ (x : Reg) (s : State),
    (∃ t, exec (.ldVxDT x) s = .next t ∧ t.getV x = s.dt ∧ MovesPcBy 2 s t ∧ ChangesOnlyRegs [x] s t)
    ∧ (∃ t, exec (.ldDTVx x) s = .next t ∧ t.dt = s.getV x ∧ t.st = s.st ∧ t.steps = s.steps
      ∧ MovesPcBy 2 s t ∧ KeepsV [] s t ∧ KeepsI s t ∧ KeepsMem s t ∧ KeepsStack s t ∧ KeepsPorts s t)
    ∧ (∃ t, exec (.ldSTVx x) s = .next t ∧ t.st = s.getV x ∧ t.dt = s.dt ∧ t.steps = s.steps
      ∧ MovesPcBy 2 s t ∧ KeepsV [] s t ∧ KeepsI s t ∧ KeepsMem s t ∧ KeepsStack s t ∧ KeepsPorts s t)

/-- ADD I, Vx (R193): the sum mod 2^16, no flag and no fault (the wrap is D9, log 11). -/
def Obligations.AddToIndexWrapsWithoutAFlag : Prop :=
  ∀ (x : Reg) (s : State), ∃ t, exec (.addI x) s = .next t
    ∧ t.i.toNat = (s.i.toNat + (s.getV x).toNat) % 65536 ∧ MovesPcBy 2 s t ∧ KeepsV [] s t
    ∧ KeepsMem s t ∧ KeepsStack s t ∧ KeepsTimers s t ∧ KeepsPorts s t

/-- LD F, Vx (R194): I is FONT_BASE + 5 * (V[x] & 0x0F), whatever FONT_BASE is, and the five bytes of
the sprite lie below 0x200 (D5, log 2). -/
def Obligations.DigitSpriteAddress : Prop :=
  ∀ (x : Reg) (s : State), ∃ t, exec (.ldF x) s = .next t
    ∧ t.i.toNat = Config.fontBase.val + 5 * ((s.getV x).toNat % 16) ∧ t.i.toNat + 5 ≤ 0x200
    ∧ MovesPcBy 2 s t ∧ KeepsV [] s t ∧ KeepsMem s t ∧ KeepsStack s t ∧ KeepsTimers s t ∧ KeepsPorts s t

/-- LD B, Vx (R195): the decimal digits of V[x] at I, I+1, I+2, hundreds first, each 0..9; I unchanged
(D8, log 10). Past 0xFFF the range fault and no cell written (D11, log 13). -/
def Obligations.DecimalDigitsAreStored : Prop :=
  ∀ (x : Reg) (s : State), s.mem.wf = true →
    (s.i.toNat + 2 ≤ 0xFFF → ∃ t, exec (.ldB x) s = .next t
      ∧ (t.mem.read s.i.toNat).toNat * 100 + (t.mem.read (s.i.toNat + 1)).toNat * 10
          + (t.mem.read (s.i.toNat + 2)).toNat = (s.getV x).toNat
      ∧ (t.mem.read (s.i.toNat + 1)).toNat ≤ 9 ∧ (t.mem.read (s.i.toNat + 2)).toNat ≤ 9
      ∧ KeepsMemOutside s.i.toNat 3 s t ∧ MovesPcBy 2 s t ∧ KeepsV [] s t ∧ KeepsI s t
      ∧ KeepsStack s t ∧ KeepsTimers s t ∧ KeepsPorts s t)
    ∧ (s.i.toNat + 2 > 0xFFF → ∃ t, exec (.ldB x) s = .next t ∧ IsFaultReset .addressRangeFault s t)

/-- LD [I], Vx (R196): V[j] at I + j for every j up to x, every other byte as before, I unchanged (D8,
log 10); past 0xFFF, summed without wrapping (D23, log 13), the range fault and nothing stored. -/
def Obligations.BlockStoreWritesExactlyItsBytes : Prop :=
  ∀ (x : Reg) (s : State), s.mem.wf = true →
    (s.i.toNat + x.val ≤ 0xFFF → ∃ t, exec (.ldMemStore x) s = .next t
      ∧ (∀ j : Reg, j ≤ x → t.mem.read (s.i.toNat + j.val) = s.getV j)
      ∧ KeepsMemOutside s.i.toNat (x.val + 1) s t ∧ MovesPcBy 2 s t ∧ KeepsV [] s t ∧ KeepsI s t
      ∧ KeepsStack s t ∧ KeepsTimers s t ∧ KeepsPorts s t)
    ∧ (s.i.toNat + x.val > 0xFFF →
      ∃ t, exec (.ldMemStore x) s = .next t ∧ IsFaultReset .addressRangeFault s t)

/-- LD Vx, [I] (R197): V[j] is the byte at I + j for every j up to x, every register above x as before,
I unchanged (D8, log 10); past 0xFFF the range fault and no register changed. -/
def Obligations.BlockLoadReadsExactlyItsBytes : Prop :=
  ∀ (x : Reg) (s : State),
    (s.i.toNat + x.val ≤ 0xFFF → ∃ t, exec (.ldMemLoad x) s = .next t
      ∧ (∀ j : Reg, j ≤ x → t.getV j = s.mem.read (s.i.toNat + j.val))
      ∧ (∀ j : Reg, x < j → t.getV j = s.getV j) ∧ MovesPcBy 2 s t ∧ KeepsI s t ∧ KeepsMem s t
      ∧ KeepsStack s t ∧ KeepsTimers s t ∧ KeepsPorts s t)
    ∧ (s.i.toNat + x.val > 0xFFF →
      ∃ t, exec (.ldMemLoad x) s = .next t ∧ IsFaultReset .addressRangeFault s t)

/-- A block store and then, whatever has become of the registers meanwhile, a block load at the same I
gives V0..Vx back (R196, R197; I unchanged by the store is D8, log 10). -/
def Obligations.BlockStoreThenLoadRestoresTheRegisters : Prop :=
  ∀ (x : Reg) (s t : State) (v' : Vector Byte 16), s.mem.wf = true → s.i.toNat + x.val ≤ 0xFFF →
    exec (.ldMemStore x) s = .next t →
    ∃ u, exec (.ldMemLoad x) { t with v := v' } = .next u ∧ ∀ j : Reg, j ≤ x → u.getV j = s.getV j

/-! ### The host -/

/-- A full reset gives the values of construction (R251), the timers among them (D14, log 16). -/
def Obligations.FullResetZeroesTheWholeState : Prop :=
  ∀ s : State, (∀ a : Nat, (fullReset s).mem.read a = 0#8) ∧ (∀ r : Reg, (fullReset s).getV r = 0#8)
    ∧ (fullReset s).i = 0#16 ∧ (fullReset s).pc = 0#16 ∧ (∀ j : Fin 16, (fullReset s).stack.get j = 0#16)
    ∧ (fullReset s).sp = 0 ∧ (fullReset s).dt = 0#8 ∧ (fullReset s).st = 0#8

/-- The host's memory accessors (R41): in range they read and write the one cell, above 0xFFF they
report a range error (D20, log 20). -/
def Obligations.HostMemoryAccessorsCheckTheirAddress : Prop :=
  ∀ (a : Nat) (b : Byte) (s : State), s.mem.wf = true →
    (a ≤ 0xFFF → hostReadMem a s = .ok (s.mem.read a)
      ∧ ∃ t, hostWriteMem a b s = .ok t ∧ t.mem.read a = b ∧ KeepsMemOutside a 1 s t
        ∧ t = { s with mem := t.mem } ∧ t.mem.wf = true)
    ∧ (0xFFF < a → hostReadMem a s = .rangeError ∧ hostWriteMem a b s = .rangeError)

/-- The loader's contract (R58, R253): an image of at most 3584 bytes lies at 0x200 on and nothing else
changes; a longer one is rejected. -/
def Obligations.ImageIsLoadedWholeOrRejected : Prop :=
  ∀ (image : List Byte) (s : State), s.mem.wf = true →
    (image.length ≤ 3584 → ∃ t, loadImage image s = .ok t
      ∧ (∀ k : Nat, k < image.length → image[k]? = some (t.mem.read (0x200 + k)))
      ∧ KeepsMemOutside 0x200 image.length s t ∧ t = { s with mem := t.mem } ∧ t.mem.wf = true)
    ∧ (3584 < image.length → loadImage image s = .imageTooLong)

/-- A booted image runs (R253; PC = 0x200 by the host is D4, log 7): with or without a font of 80
bytes, the first step runs the image's first word. -/
def Obligations.BootedImageRunsItsFirstWord : Prop :=
  ∀ (image : List Byte) (font : Option (List Byte)) (s : State) (i : Instr), s.Inv →
    image.length ≤ 3584 → (∀ sprites, font = some sprites → sprites.length = 80) →
    decode image = .instr i →
    ∃ t, boot image font s = .ok t ∧ t.pc = 0x200#16 ∧ step t = exec i (beginStep t)
end

