-- ==== Sys2Proof/Laws/Decode.lean ====
section
/-! SUPPORT. What each field of a word is, for words built by the encoder's three forms. -/

namespace Sys2Proof

theorem toNat_formNNN (f : Nibble) (nnn : Addr12) :
    (formNNN f nnn).toNat = f.toNat * 4096 + nnn.toNat := by
  have h := nnn.isLt
  simp only [formNNN, BitVec.toNat_append]
  rw [← Nat.shiftLeft_add_eq_or_of_lt h, Nat.shiftLeft_eq]

theorem toNat_formXNN (f : Nibble) (x : Reg) (nn : Byte) :
    (formXNN f x nn).toNat = f.toNat * 4096 + x.val * 256 + nn.toNat := by
  have h1 := nn.isLt
  have h2 : (regBits x).toNat < 2 ^ 4 := (regBits x).isLt
  have h3 : (regBits x).toNat = x.val := rfl
  simp only [formXNN, BitVec.toNat_append]
  rw [← Nat.shiftLeft_add_eq_or_of_lt h1, ← Nat.shiftLeft_add_eq_or_of_lt h2, Nat.shiftLeft_eq,
    Nat.shiftLeft_eq, h3]
  omega

theorem toNat_formXYN (f : Nibble) (x y : Reg) (n : Nibble) :
    (formXYN f x y n).toNat = f.toNat * 4096 + x.val * 256 + y.val * 16 + n.toNat := by
  have h1 := n.isLt
  have h2 : (regBits x).toNat < 2 ^ 4 := (regBits x).isLt
  have h3 : (regBits x).toNat = x.val := rfl
  have h4 : (regBits y).toNat < 2 ^ 4 := (regBits y).isLt
  have h5 : (regBits y).toNat = y.val := rfl
  simp only [formXYN, BitVec.toNat_append]
  rw [← Nat.shiftLeft_add_eq_or_of_lt h1, ← Nat.shiftLeft_add_eq_or_of_lt h4,
    ← Nat.shiftLeft_add_eq_or_of_lt h2, Nat.shiftLeft_eq, Nat.shiftLeft_eq, Nat.shiftLeft_eq, h3, h5]
  omega

theorem toNat_fieldFamily (w : Word) : (fieldFamily w).toNat = w.toNat / 4096 := by
  have h := w.isLt
  simp only [fieldFamily, BitVec.extractLsb'_toNat, Nat.shiftRight_eq_div_pow]
  omega

theorem val_fieldX (w : Word) : (fieldX w).val = w.toNat / 256 % 16 := by
  show (w.extractLsb' 8 4).toNat = _
  simp only [BitVec.extractLsb'_toNat, Nat.shiftRight_eq_div_pow]

theorem val_fieldY (w : Word) : (fieldY w).val = w.toNat / 16 % 16 := by
  show (w.extractLsb' 4 4).toNat = _
  simp only [BitVec.extractLsb'_toNat, Nat.shiftRight_eq_div_pow]

theorem toNat_fieldN (w : Word) : (fieldN w).toNat = w.toNat % 16 := by
  simp [fieldN, BitVec.extractLsb'_toNat]

theorem toNat_fieldNN (w : Word) : (fieldNN w).toNat = w.toNat % 256 := by
  simp [fieldNN, BitVec.extractLsb'_toNat]

theorem toNat_fieldNNN (w : Word) : (fieldNNN w).toNat = w.toNat % 4096 := by
  simp [fieldNNN, BitVec.extractLsb'_toNat]

@[simp] theorem fieldFamily_formNNN (f : Nibble) (nnn : Addr12) : fieldFamily (formNNN f nnn) = f := by
  have := nnn.isLt
  apply BitVec.eq_of_toNat_eq; rw [toNat_fieldFamily, toNat_formNNN]; omega

@[simp] theorem fieldNNN_formNNN (f : Nibble) (nnn : Addr12) : fieldNNN (formNNN f nnn) = nnn := by
  have := nnn.isLt
  apply BitVec.eq_of_toNat_eq; rw [toNat_fieldNNN, toNat_formNNN]; omega

@[simp] theorem fieldFamily_formXNN (f : Nibble) (x : Reg) (nn : Byte) :
    fieldFamily (formXNN f x nn) = f := by
  have := nn.isLt
  apply BitVec.eq_of_toNat_eq; rw [toNat_fieldFamily, toNat_formXNN]; omega

@[simp] theorem fieldX_formXNN (f : Nibble) (x : Reg) (nn : Byte) : fieldX (formXNN f x nn) = x := by
  have := nn.isLt
  apply Fin.ext; rw [val_fieldX, toNat_formXNN]; omega

@[simp] theorem fieldNN_formXNN (f : Nibble) (x : Reg) (nn : Byte) : fieldNN (formXNN f x nn) = nn := by
  have := nn.isLt
  apply BitVec.eq_of_toNat_eq; rw [toNat_fieldNN, toNat_formXNN]; omega

@[simp] theorem fieldFamily_formXYN (f : Nibble) (x y : Reg) (n : Nibble) :
    fieldFamily (formXYN f x y n) = f := by
  have := n.isLt
  apply BitVec.eq_of_toNat_eq; rw [toNat_fieldFamily, toNat_formXYN]; omega

@[simp] theorem fieldX_formXYN (f : Nibble) (x y : Reg) (n : Nibble) : fieldX (formXYN f x y n) = x := by
  have := n.isLt
  apply Fin.ext; rw [val_fieldX, toNat_formXYN]; omega

@[simp] theorem fieldY_formXYN (f : Nibble) (x y : Reg) (n : Nibble) : fieldY (formXYN f x y n) = y := by
  have := n.isLt
  apply Fin.ext; rw [val_fieldY, toNat_formXYN]; omega

@[simp] theorem fieldN_formXYN (f : Nibble) (x y : Reg) (n : Nibble) : fieldN (formXYN f x y n) = n := by
  have := n.isLt
  apply BitVec.eq_of_toNat_eq; rw [toNat_fieldN, toNat_formXYN]; omega

/-- A word is its family and its NNN field. -/
theorem formNNN_fields (w : Word) : formNNN (fieldFamily w) (fieldNNN w) = w := by
  apply BitVec.eq_of_toNat_eq; rw [toNat_formNNN, toNat_fieldFamily, toNat_fieldNNN]; omega

/-- A word is its family and its X and NN fields. -/
theorem formXNN_fields (w : Word) : formXNN (fieldFamily w) (fieldX w) (fieldNN w) = w := by
  apply BitVec.eq_of_toNat_eq
  rw [toNat_formXNN, toNat_fieldFamily, val_fieldX, toNat_fieldNN]; omega

/-- A word is its four nibbles. -/
theorem formXYN_fields (w : Word) : formXYN (fieldFamily w) (fieldX w) (fieldY w) (fieldN w) = w := by
  apply BitVec.eq_of_toNat_eq
  rw [toNat_formXYN, toNat_fieldFamily, val_fieldX, val_fieldY, toNat_fieldN]; omega

/-- The two bytes of a word put together again are the word (R51). -/
@[simp] theorem wordOfBytes_bytes (w : Word) : wordOfBytes (highByte w) (lowByte w) = w := by
  have hlo : (lowByte w).toNat < 2 ^ 8 := (lowByte w).isLt
  apply BitVec.eq_of_toNat_eq
  simp only [wordOfBytes, BitVec.toNat_append]
  rw [← Nat.shiftLeft_add_eq_or_of_lt hlo, Nat.shiftLeft_eq]
  simp only [highByte, lowByte, BitVec.extractLsb'_toNat, Nat.shiftRight_eq_div_pow]
  have := w.isLt
  omega

/-- Decoding the bytes of a word is decoding the word. -/
@[simp] theorem decode_bytesOfWord (w : Word) : decode (bytesOfWord w) = decodeWord w := by
  simp [decode, bytesOfWord]

@[simp] theorem decode_pair (hi lo : Byte) (rest : List Byte) :
    decode (hi :: lo :: rest) = decodeWord (wordOfBytes hi lo) := rfl

/-! ### The decode tree, branch by branch (R73) -/

/-- There are sixteen families and no more (R82). -/
theorem nibble_cases (f : Nibble) : f = 0x0#4 ∨ f = 0x1#4 ∨ f = 0x2#4 ∨ f = 0x3#4 ∨ f = 0x4#4 ∨ f = 0x5#4
    ∨ f = 0x6#4 ∨ f = 0x7#4 ∨ f = 0x8#4 ∨ f = 0x9#4 ∨ f = 0xA#4 ∨ f = 0xB#4 ∨ f = 0xC#4 ∨ f = 0xD#4
    ∨ f = 0xE#4 ∨ f = 0xF#4 := by
  revert f; decide

theorem decodeWord_of_family0 (w : Word) (h : fieldFamily w = 0x0#4) :
    decodeWord w = decodeFamily0 w := by
  simp [decodeWord, h]

theorem decodeWord_of_family1 (w : Word) (h : fieldFamily w = 0x1#4) :
    decodeWord w = .instr (.jp (fieldNNN w)) := by
  simp [decodeWord, h]

theorem decodeWord_of_family2 (w : Word) (h : fieldFamily w = 0x2#4) :
    decodeWord w = .instr (.call (fieldNNN w)) := by
  simp [decodeWord, h]

theorem decodeWord_of_family3 (w : Word) (h : fieldFamily w = 0x3#4) :
    decodeWord w = .instr (.seImm (fieldX w) (fieldNN w)) := by
  simp [decodeWord, h]

theorem decodeWord_of_family4 (w : Word) (h : fieldFamily w = 0x4#4) :
    decodeWord w = .instr (.sneImm (fieldX w) (fieldNN w)) := by
  simp [decodeWord, h]

theorem decodeWord_of_family5 (w : Word) (h : fieldFamily w = 0x5#4) :
    decodeWord w = decodeFamily5 w := by
  simp [decodeWord, h]

theorem decodeWord_of_family6 (w : Word) (h : fieldFamily w = 0x6#4) :
    decodeWord w = .instr (.ldImm (fieldX w) (fieldNN w)) := by
  simp [decodeWord, h]

theorem decodeWord_of_family7 (w : Word) (h : fieldFamily w = 0x7#4) :
    decodeWord w = .instr (.addImm (fieldX w) (fieldNN w)) := by
  simp [decodeWord, h]

theorem decodeWord_of_family8 (w : Word) (h : fieldFamily w = 0x8#4) :
    decodeWord w = decodeFamily8 w := by
  simp [decodeWord, h]

theorem decodeWord_of_family9 (w : Word) (h : fieldFamily w = 0x9#4) :
    decodeWord w = decodeFamily9 w := by
  simp [decodeWord, h]

theorem decodeWord_of_familyA (w : Word) (h : fieldFamily w = 0xA#4) :
    decodeWord w = .instr (.ldI (fieldNNN w)) := by
  simp [decodeWord, h]

theorem decodeWord_of_familyB (w : Word) (h : fieldFamily w = 0xB#4) :
    decodeWord w = .instr (.jpV0 (fieldNNN w)) := by
  simp [decodeWord, h]

theorem decodeWord_of_familyC (w : Word) (h : fieldFamily w = 0xC#4) :
    decodeWord w = .instr (.rnd (fieldX w) (fieldNN w)) := by
  simp [decodeWord, h]

theorem decodeWord_of_familyD (w : Word) (h : fieldFamily w = 0xD#4) :
    decodeWord w = .instr (.drw (fieldX w) (fieldY w) (fieldN w)) := by
  simp [decodeWord, h]

theorem decodeWord_of_familyE (w : Word) (h : fieldFamily w = 0xE#4) :
    decodeWord w = decodeFamilyE w := by
  simp [decodeWord, h]

theorem decodeWord_of_familyF (w : Word) (h : fieldFamily w = 0xF#4) :
    decodeWord w = decodeFamilyF w := by
  simp [decodeWord, h]

end Sys2Proof
end

