-- ==== Sys2Proof/Laws/Memory.lean ====
section
/-! SUPPORT. The laws of memory: read after write, and the canonical form kept by every operation. -/

namespace Sys2Proof.Machine

namespace Memory

theorem wfFrom_mono {lo lo' : Nat} {m : Memory} (h : wfFrom lo' m = true) (hle : lo ≤ lo') :
    wfFrom lo m = true := by
  cases m with
  | nil => rfl
  | cons c rest =>
    obtain ⟨a, b⟩ := c
    simp only [wfFrom, Bool.and_eq_true, decide_eq_true_eq] at h ⊢
    exact ⟨⟨⟨by omega, h.1.1.2⟩, h.1.2⟩, h.2⟩

/-- Below its first address a canonical memory lists nothing. -/
theorem read_of_lt {lo a : Nat} {m : Memory} (h : wfFrom lo m = true) (ha : a < lo) :
    m.read a = unlisted := by
  induction m generalizing lo with
  | nil => rfl
  | cons c rest ih =>
    obtain ⟨a', b⟩ := c
    simp only [wfFrom, Bool.and_eq_true, decide_eq_true_eq] at h
    have hne : ¬ a' = a := by omega
    simp only [read, if_neg hne]
    exact ih h.2 (by omega)

theorem read_consCell (a c : Nat) (b : Byte) (m : Memory) (h : m.read a = unlisted) :
    (consCell a b m).read c = if c = a then b else m.read c := by
  unfold consCell
  split
  · next hb =>
    split
    · next hc => subst hc; rw [h, hb]
    · rfl
  · simp only [read, eq_comm]

theorem wfFrom_consCell {lo a : Nat} {b : Byte} {m : Memory} (hm : wfFrom (a + 1) m = true)
    (hlo : lo ≤ a) (ha : a < memSize) : wfFrom lo (consCell a b m) = true := by
  unfold consCell
  split
  · exact wfFrom_mono hm (by omega)
  · next hb => simp [wfFrom, hm, hlo, ha, hb]

/-- A write keeps the canonical form. -/
theorem wfFrom_write {lo a : Nat} {b : Byte} {m : Memory} (hm : wfFrom lo m = true)
    (hlo : lo ≤ a) (ha : a < memSize) : wfFrom lo (m.write a b) = true := by
  induction m generalizing lo with
  | nil => exact wfFrom_consCell rfl hlo ha
  | cons c rest ih =>
    obtain ⟨a', b'⟩ := c
    simp only [wfFrom, Bool.and_eq_true, decide_eq_true_eq] at hm
    simp only [write]
    split
    · next h =>
      refine wfFrom_consCell ?_ hlo ha
      simp only [wfFrom, Bool.and_eq_true, decide_eq_true_eq]
      exact ⟨⟨⟨by omega, hm.1.1.2⟩, hm.1.2⟩, hm.2⟩
    · split
      · next h => subst h; exact wfFrom_consCell hm.2 hlo ha
      · simp only [wfFrom, Bool.and_eq_true, decide_eq_true_eq]
        exact ⟨hm.1, ih hm.2 (by omega)⟩

/-- Read after write. -/
theorem read_write_of_wfFrom {lo a c : Nat} {b : Byte} {m : Memory} (hm : wfFrom lo m = true) :
    (m.write a b).read c = if c = a then b else m.read c := by
  induction m generalizing lo with
  | nil => exact read_consCell a c b [] rfl
  | cons e rest ih =>
    obtain ⟨a', b'⟩ := e
    simp only [wfFrom, Bool.and_eq_true, decide_eq_true_eq] at hm
    simp only [write]
    split
    · next h =>
      refine read_consCell a c b _ ?_
      refine read_of_lt (lo := a') ?_ h
      simp only [wfFrom, Bool.and_eq_true, decide_eq_true_eq]
      exact ⟨⟨⟨le_refl _, hm.1.1.2⟩, hm.1.2⟩, hm.2⟩
    · split
      · next h =>
        subst h
        rw [read_consCell a c b rest (read_of_lt hm.2 (by omega))]
        by_cases hc : c = a
        · simp [hc]
        · simp [hc, read, Ne.symm hc]
      · next h1 h2 =>
        simp only [read, ih hm.2]
        by_cases hc : a' = c
        · subst hc; simp [Ne.symm h2]
        · simp [hc]

theorem wf_write {a : Nat} {b : Byte} {m : Memory} (hm : m.wf = true) (ha : a < memSize) :
    (m.write a b).wf = true :=
  wfFrom_write hm (Nat.zero_le a) ha

theorem read_write {a c : Nat} {b : Byte} {m : Memory} (hm : m.wf = true) :
    (m.write a b).read c = if c = a then b else m.read c :=
  read_write_of_wfFrom hm

/-- A run of writes keeps the canonical form. -/
theorem wf_writeBytes {a : Nat} {bytes : List Byte} {m : Memory} (hm : m.wf = true)
    (ha : a + bytes.length ≤ memSize) : (m.writeBytes a bytes).wf = true := by
  induction bytes generalizing a m with
  | nil => exact hm
  | cons b rest ih =>
    simp only [List.length_cons] at ha
    exact ih (wf_write hm (by omega)) (by omega)

/-- What a run of writes leaves at every address: the run's byte inside it, the old byte outside. -/
theorem read_writeBytes {a c : Nat} {bytes : List Byte} {m : Memory} (hm : m.wf = true)
    (ha : a + bytes.length ≤ memSize) :
    (m.writeBytes a bytes).read c = if a ≤ c then (bytes[c - a]?).getD (m.read c) else m.read c := by
  induction bytes generalizing a m with
  | nil => simp [writeBytes]
  | cons b rest ih =>
    simp only [List.length_cons] at ha
    simp only [writeBytes]
    rw [ih (wf_write hm (by omega)) (by omega), read_write hm]
    rcases Nat.lt_trichotomy c a with h | h | h
    · have h1 : ¬ a + 1 ≤ c := by omega
      have h2 : ¬ a ≤ c := by omega
      simp [h1, h2, Nat.ne_of_lt h]
    · subst h; simp
    · have h1 : a + 1 ≤ c := by omega
      have h2 : a ≤ c := by omega
      obtain ⟨d, hd⟩ : ∃ d, c - a = d + 1 := ⟨c - a - 1, by omega⟩
      have h3 : c - (a + 1) = d := by omega
      simp [h1, h2, hd, h3, Nat.ne_of_gt h]

/-- Outside the run every byte stays. -/
theorem read_writeBytes_outside {a c : Nat} {bytes : List Byte} {m : Memory} (hm : m.wf = true)
    (ha : a + bytes.length ≤ memSize) (hc : c < a ∨ a + bytes.length ≤ c) :
    (m.writeBytes a bytes).read c = m.read c := by
  rw [read_writeBytes hm ha]
  split
  · have : bytes[c - a]? = none := List.getElem?_eq_none (by omega)
    simp [this]
  · rfl

@[simp] theorem length_readBytes (m : Memory) (a n : Nat) : (m.readBytes a n).length = n := by
  induction n generalizing a with
  | zero => rfl
  | succ n ih => simp [readBytes, ih]

/-- The `k`-th byte of a run that is read. -/
theorem getElem?_readBytes (m : Memory) (a n k : Nat) :
    (m.readBytes a n)[k]? = if k < n then some (m.read (a + k)) else none := by
  induction n generalizing a k with
  | zero => simp [readBytes]
  | succ n ih =>
    cases k with
    | zero => simp [readBytes]
    | succ k => simp [readBytes, ih, Nat.add_assoc, Nat.add_comm 1 k]

/-- Canonical memories that read alike are equal. -/
theorem eq_of_read {lo : Nat} {m m' : Memory} (h : wfFrom lo m = true) (h' : wfFrom lo m' = true)
    (heq : ∀ a, m.read a = m'.read a) : m = m' := by
  induction m generalizing lo m' with
  | nil =>
    cases m' with
    | nil => rfl
    | cons c' rest' =>
      obtain ⟨a', b'⟩ := c'
      simp only [wfFrom, Bool.and_eq_true, decide_eq_true_eq, bne_iff_ne, ne_eq] at h'
      have := heq a'
      simp only [read, if_true] at this
      exact absurd this.symm h'.1.2
  | cons c rest ih =>
    obtain ⟨a, b⟩ := c
    simp only [wfFrom, Bool.and_eq_true, decide_eq_true_eq, bne_iff_ne, ne_eq] at h
    cases m' with
    | nil =>
      have := heq a
      simp only [read, if_true] at this
      exact absurd this h.1.2
    | cons c' rest' =>
      obtain ⟨a', b'⟩ := c'
      simp only [wfFrom, Bool.and_eq_true, decide_eq_true_eq, bne_iff_ne, ne_eq] at h'
      have haa : a = a' := by
        rcases Nat.lt_trichotomy a a' with hlt | heq' | hgt
        · have h1 := heq a
          have hne : ¬ a' = a := by omega
          rw [show read ((a', b') :: rest') a = unlisted from by
            simp only [read, if_neg hne]; exact read_of_lt h'.2 (by omega)] at h1
          simp only [read, if_true] at h1
          exact absurd h1 h.1.2
        · exact heq'
        · have h1 := heq a'
          have hne : ¬ a = a' := by omega
          rw [show read ((a, b) :: rest) a' = unlisted from by
            simp only [read, if_neg hne]; exact read_of_lt h.2 (by omega)] at h1
          simp only [read, if_true] at h1
          exact absurd h1.symm h'.1.2
      subst haa
      have hb : b = b' := by simpa [read] using heq a
      subst hb
      have hrest : rest = rest' := by
        refine ih h.2 h'.2 fun c => ?_
        by_cases hc : a = c
        · subst hc
          rw [read_of_lt h.2 (by omega), read_of_lt h'.2 (by omega)]
        · simpa [read, hc] using heq c
      rw [hrest]

end Memory

end Sys2Proof.Machine
end

