-- ==== Sys2Proof/Laws/State.lean ====
section
/-! SUPPORT. One lemma per field per update, so that no later proof unfolds a record update. -/

namespace Sys2Proof.Machine

@[simp] theorem State.setV_mem (s : State) (r : Reg) (b : Byte) : (s.setV r b).mem = s.mem := rfl
@[simp] theorem State.setV_v (s : State) (r : Reg) (b : Byte) : (s.setV r b).v = s.v.set r.val b r.isLt := rfl
@[simp] theorem State.setV_i (s : State) (r : Reg) (b : Byte) : (s.setV r b).i = s.i := rfl
@[simp] theorem State.setV_pc (s : State) (r : Reg) (b : Byte) : (s.setV r b).pc = s.pc := rfl
@[simp] theorem State.setV_stack (s : State) (r : Reg) (b : Byte) : (s.setV r b).stack = s.stack := rfl
@[simp] theorem State.setV_sp (s : State) (r : Reg) (b : Byte) : (s.setV r b).sp = s.sp := rfl
@[simp] theorem State.setV_dt (s : State) (r : Reg) (b : Byte) : (s.setV r b).dt = s.dt := rfl
@[simp] theorem State.setV_st (s : State) (r : Reg) (b : Byte) : (s.setV r b).st = s.st := rfl
@[simp] theorem State.setV_portLog (s : State) (r : Reg) (b : Byte) : (s.setV r b).portLog = s.portLog := rfl
@[simp] theorem State.setV_draws (s : State) (r : Reg) (b : Byte) : (s.setV r b).draws = s.draws := rfl
@[simp] theorem State.setV_steps (s : State) (r : Reg) (b : Byte) : (s.setV r b).steps = s.steps := rfl

@[simp] theorem State.setI_mem (s : State) (w : Word) : (s.setI w).mem = s.mem := rfl
@[simp] theorem State.setI_v (s : State) (w : Word) : (s.setI w).v = s.v := rfl
@[simp] theorem State.setI_i (s : State) (w : Word) : (s.setI w).i = w := rfl
@[simp] theorem State.setI_pc (s : State) (w : Word) : (s.setI w).pc = s.pc := rfl
@[simp] theorem State.setI_stack (s : State) (w : Word) : (s.setI w).stack = s.stack := rfl
@[simp] theorem State.setI_sp (s : State) (w : Word) : (s.setI w).sp = s.sp := rfl
@[simp] theorem State.setI_dt (s : State) (w : Word) : (s.setI w).dt = s.dt := rfl
@[simp] theorem State.setI_st (s : State) (w : Word) : (s.setI w).st = s.st := rfl
@[simp] theorem State.setI_portLog (s : State) (w : Word) : (s.setI w).portLog = s.portLog := rfl
@[simp] theorem State.setI_draws (s : State) (w : Word) : (s.setI w).draws = s.draws := rfl
@[simp] theorem State.setI_steps (s : State) (w : Word) : (s.setI w).steps = s.steps := rfl
@[simp] theorem State.getV_setI (s : State) (w : Word) (j : Reg) : (s.setI w).getV j = s.getV j := rfl

@[simp] theorem State.setPc_mem (s : State) (w : Word) : (s.setPc w).mem = s.mem := rfl
@[simp] theorem State.setPc_v (s : State) (w : Word) : (s.setPc w).v = s.v := rfl
@[simp] theorem State.setPc_i (s : State) (w : Word) : (s.setPc w).i = s.i := rfl
@[simp] theorem State.setPc_pc (s : State) (w : Word) : (s.setPc w).pc = w := rfl
@[simp] theorem State.setPc_stack (s : State) (w : Word) : (s.setPc w).stack = s.stack := rfl
@[simp] theorem State.setPc_sp (s : State) (w : Word) : (s.setPc w).sp = s.sp := rfl
@[simp] theorem State.setPc_dt (s : State) (w : Word) : (s.setPc w).dt = s.dt := rfl
@[simp] theorem State.setPc_st (s : State) (w : Word) : (s.setPc w).st = s.st := rfl
@[simp] theorem State.setPc_portLog (s : State) (w : Word) : (s.setPc w).portLog = s.portLog := rfl
@[simp] theorem State.setPc_draws (s : State) (w : Word) : (s.setPc w).draws = s.draws := rfl
@[simp] theorem State.setPc_steps (s : State) (w : Word) : (s.setPc w).steps = s.steps := rfl
@[simp] theorem State.getV_setPc (s : State) (w : Word) (j : Reg) : (s.setPc w).getV j = s.getV j := rfl

@[simp] theorem State.advance_mem (s : State) : (s.advance).mem = s.mem := rfl
@[simp] theorem State.advance_v (s : State) : (s.advance).v = s.v := rfl
@[simp] theorem State.advance_i (s : State) : (s.advance).i = s.i := rfl
@[simp] theorem State.advance_pc (s : State) : (s.advance).pc = s.pc + 2#16 := rfl
@[simp] theorem State.advance_stack (s : State) : (s.advance).stack = s.stack := rfl
@[simp] theorem State.advance_sp (s : State) : (s.advance).sp = s.sp := rfl
@[simp] theorem State.advance_dt (s : State) : (s.advance).dt = s.dt := rfl
@[simp] theorem State.advance_st (s : State) : (s.advance).st = s.st := rfl
@[simp] theorem State.advance_portLog (s : State) : (s.advance).portLog = s.portLog := rfl
@[simp] theorem State.advance_draws (s : State) : (s.advance).draws = s.draws := rfl
@[simp] theorem State.advance_steps (s : State) : (s.advance).steps = s.steps := rfl
@[simp] theorem State.getV_advance (s : State) (j : Reg) : (s.advance).getV j = s.getV j := rfl

@[simp] theorem State.logPort_mem (s : State) (e : PortEvent) : (s.logPort e).mem = s.mem := rfl
@[simp] theorem State.logPort_v (s : State) (e : PortEvent) : (s.logPort e).v = s.v := rfl
@[simp] theorem State.logPort_i (s : State) (e : PortEvent) : (s.logPort e).i = s.i := rfl
@[simp] theorem State.logPort_pc (s : State) (e : PortEvent) : (s.logPort e).pc = s.pc := rfl
@[simp] theorem State.logPort_stack (s : State) (e : PortEvent) : (s.logPort e).stack = s.stack := rfl
@[simp] theorem State.logPort_sp (s : State) (e : PortEvent) : (s.logPort e).sp = s.sp := rfl
@[simp] theorem State.logPort_dt (s : State) (e : PortEvent) : (s.logPort e).dt = s.dt := rfl
@[simp] theorem State.logPort_st (s : State) (e : PortEvent) : (s.logPort e).st = s.st := rfl
@[simp] theorem State.logPort_portLog (s : State) (e : PortEvent) : (s.logPort e).portLog = e :: s.portLog := rfl
@[simp] theorem State.logPort_draws (s : State) (e : PortEvent) : (s.logPort e).draws = s.draws := rfl
@[simp] theorem State.logPort_steps (s : State) (e : PortEvent) : (s.logPort e).steps = s.steps := rfl
@[simp] theorem State.getV_logPort (s : State) (e : PortEvent) (j : Reg) : (s.logPort e).getV j = s.getV j := rfl

@[simp] theorem State.nextDraw_mem (s : State) : (s.nextDraw).mem = s.mem := rfl
@[simp] theorem State.nextDraw_v (s : State) : (s.nextDraw).v = s.v := rfl
@[simp] theorem State.nextDraw_i (s : State) : (s.nextDraw).i = s.i := rfl
@[simp] theorem State.nextDraw_pc (s : State) : (s.nextDraw).pc = s.pc := rfl
@[simp] theorem State.nextDraw_stack (s : State) : (s.nextDraw).stack = s.stack := rfl
@[simp] theorem State.nextDraw_sp (s : State) : (s.nextDraw).sp = s.sp := rfl
@[simp] theorem State.nextDraw_dt (s : State) : (s.nextDraw).dt = s.dt := rfl
@[simp] theorem State.nextDraw_st (s : State) : (s.nextDraw).st = s.st := rfl
@[simp] theorem State.nextDraw_portLog (s : State) : (s.nextDraw).portLog = s.portLog := rfl
@[simp] theorem State.nextDraw_draws (s : State) : (s.nextDraw).draws = s.draws + 1 := rfl
@[simp] theorem State.nextDraw_steps (s : State) : (s.nextDraw).steps = s.steps := rfl
@[simp] theorem State.getV_nextDraw (s : State) (j : Reg) : (s.nextDraw).getV j = s.getV j := rfl

@[simp] theorem callTrace_mem (s : State) (e : TraceEvent) : (callTrace e s).mem = s.mem := rfl
@[simp] theorem callTrace_v (s : State) (e : TraceEvent) : (callTrace e s).v = s.v := rfl
@[simp] theorem callTrace_i (s : State) (e : TraceEvent) : (callTrace e s).i = s.i := rfl
@[simp] theorem callTrace_pc (s : State) (e : TraceEvent) : (callTrace e s).pc = s.pc := rfl
@[simp] theorem callTrace_stack (s : State) (e : TraceEvent) : (callTrace e s).stack = s.stack := rfl
@[simp] theorem callTrace_sp (s : State) (e : TraceEvent) : (callTrace e s).sp = s.sp := rfl
@[simp] theorem callTrace_dt (s : State) (e : TraceEvent) : (callTrace e s).dt = s.dt := rfl
@[simp] theorem callTrace_st (s : State) (e : TraceEvent) : (callTrace e s).st = s.st := rfl
@[simp] theorem callTrace_portLog (s : State) (e : TraceEvent) : (callTrace e s).portLog = .trace e :: s.portLog := rfl
@[simp] theorem callTrace_draws (s : State) (e : TraceEvent) : (callTrace e s).draws = s.draws := rfl
@[simp] theorem callTrace_steps (s : State) (e : TraceEvent) : (callTrace e s).steps = s.steps := rfl
@[simp] theorem getV_callTrace (s : State) (e : TraceEvent) (j : Reg) : (callTrace e s).getV j = s.getV j := rfl

@[simp] theorem callClearScreen_mem (s : State) : (callClearScreen s).mem = s.mem := rfl
@[simp] theorem callClearScreen_v (s : State) : (callClearScreen s).v = s.v := rfl
@[simp] theorem callClearScreen_i (s : State) : (callClearScreen s).i = s.i := rfl
@[simp] theorem callClearScreen_pc (s : State) : (callClearScreen s).pc = s.pc := rfl
@[simp] theorem callClearScreen_stack (s : State) : (callClearScreen s).stack = s.stack := rfl
@[simp] theorem callClearScreen_sp (s : State) : (callClearScreen s).sp = s.sp := rfl
@[simp] theorem callClearScreen_dt (s : State) : (callClearScreen s).dt = s.dt := rfl
@[simp] theorem callClearScreen_st (s : State) : (callClearScreen s).st = s.st := rfl
@[simp] theorem callClearScreen_portLog (s : State) : (callClearScreen s).portLog = .clearScreen :: s.portLog := rfl
@[simp] theorem callClearScreen_draws (s : State) : (callClearScreen s).draws = s.draws := rfl
@[simp] theorem callClearScreen_steps (s : State) : (callClearScreen s).steps = s.steps := rfl
@[simp] theorem getV_callClearScreen (s : State) (j : Reg) : (callClearScreen s).getV j = s.getV j := rfl

@[simp] theorem faultReset_mem (s : State) (k : FaultKind) : (faultReset k s).mem = s.mem := rfl
@[simp] theorem faultReset_v (s : State) (k : FaultKind) : (faultReset k s).v = s.v := rfl
@[simp] theorem faultReset_i (s : State) (k : FaultKind) : (faultReset k s).i = 0#16 := rfl
@[simp] theorem faultReset_pc (s : State) (k : FaultKind) : (faultReset k s).pc = 0#16 := rfl
@[simp] theorem faultReset_stack (s : State) (k : FaultKind) : (faultReset k s).stack = s.stack := rfl
@[simp] theorem faultReset_sp (s : State) (k : FaultKind) : (faultReset k s).sp = 0 := rfl
@[simp] theorem faultReset_dt (s : State) (k : FaultKind) : (faultReset k s).dt = s.dt := rfl
@[simp] theorem faultReset_st (s : State) (k : FaultKind) : (faultReset k s).st = s.st := rfl
@[simp] theorem faultReset_portLog (s : State) (k : FaultKind) : (faultReset k s).portLog = .trace (.faultTrace k) :: s.portLog := rfl
@[simp] theorem faultReset_draws (s : State) (k : FaultKind) : (faultReset k s).draws = s.draws := rfl
@[simp] theorem faultReset_steps (s : State) (k : FaultKind) : (faultReset k s).steps = s.steps := rfl
@[simp] theorem getV_faultReset (s : State) (k : FaultKind) (j : Reg) : (faultReset k s).getV j = s.getV j := rfl

@[simp] theorem beginStep_mem (s : State) : (beginStep s).mem = s.mem := rfl
@[simp] theorem beginStep_v (s : State) : (beginStep s).v = s.v := rfl
@[simp] theorem beginStep_i (s : State) : (beginStep s).i = s.i := rfl
@[simp] theorem beginStep_pc (s : State) : (beginStep s).pc = s.pc := rfl
@[simp] theorem beginStep_stack (s : State) : (beginStep s).stack = s.stack := rfl
@[simp] theorem beginStep_sp (s : State) : (beginStep s).sp = s.sp := rfl
@[simp] theorem beginStep_dt (s : State) : (beginStep s).dt = timerTicks (Config.delayTicks s.steps) s.dt := rfl
@[simp] theorem beginStep_st (s : State) : (beginStep s).st = timerTicks (Config.soundTicks s.steps) s.st := rfl
@[simp] theorem beginStep_portLog (s : State) : (beginStep s).portLog = s.portLog := rfl
@[simp] theorem beginStep_draws (s : State) : (beginStep s).draws = s.draws := rfl
@[simp] theorem beginStep_steps (s : State) : (beginStep s).steps = s.steps + 1 := rfl
@[simp] theorem getV_beginStep (s : State) (j : Reg) : (beginStep s).getV j = s.getV j := rfl

@[simp] theorem placeWord_mem (s : State) (w : Word) : (placeWord s w).mem = s.mem.writeBytes (placeAddress s).toNat (bytesOfWord w) := rfl
@[simp] theorem placeWord_v (s : State) (w : Word) : (placeWord s w).v = s.v := rfl
@[simp] theorem placeWord_i (s : State) (w : Word) : (placeWord s w).i = s.i := rfl
@[simp] theorem placeWord_pc (s : State) (w : Word) : (placeWord s w).pc = placeAddress s := rfl
@[simp] theorem placeWord_stack (s : State) (w : Word) : (placeWord s w).stack = s.stack := rfl
@[simp] theorem placeWord_sp (s : State) (w : Word) : (placeWord s w).sp = s.sp := rfl
@[simp] theorem placeWord_dt (s : State) (w : Word) : (placeWord s w).dt = s.dt := rfl
@[simp] theorem placeWord_st (s : State) (w : Word) : (placeWord s w).st = s.st := rfl
@[simp] theorem placeWord_portLog (s : State) (w : Word) : (placeWord s w).portLog = s.portLog := rfl
@[simp] theorem placeWord_draws (s : State) (w : Word) : (placeWord s w).draws = s.draws := rfl
@[simp] theorem placeWord_steps (s : State) (w : Word) : (placeWord s w).steps = s.steps := rfl
@[simp] theorem getV_placeWord (s : State) (w : Word) (j : Reg) : (placeWord s w).getV j = s.getV j := rfl

/-- A register write is seen at that register alone. -/
theorem State.getV_setV (s : State) (r j : Reg) (b : Byte) :
    (s.setV r b).getV j = if j = r then b else s.getV j := by
  simp only [State.getV, State.setV, Vector.get_eq_getElem, Vector.getElem_set, Fin.ext_iff, eq_comm]

@[simp] theorem State.getV_setV_self (s : State) (r : Reg) (b : Byte) : (s.setV r b).getV r = b := by
  simp [State.getV_setV]

theorem State.getV_setV_ne (s : State) (r j : Reg) (b : Byte) (h : j ≠ r) :
    (s.setV r b).getV j = s.getV j := by
  simp [State.getV_setV, h]

/-- Two register files that read alike are the same. -/
theorem State.v_eq_of_getV {s t : State} (h : ∀ j, s.getV j = t.getV j) : s.v = t.v := by
  apply Vector.ext
  intro k hk
  simpa [State.getV, Vector.get_eq_getElem] using h ⟨k, hk⟩

end Sys2Proof.Machine
end

