-- ==== Sys2Proof/Laws/Ops.lean ====
section
/-! SUPPORT. For each shared operation, once, everything it can do. -/

namespace Sys2Proof.Machine

/-! ### Faults -/

/-- What a fault reset leaves. -/
theorem faultReset_isFaultReset (k : FaultKind) (s : State) : IsFaultReset k s (faultReset k s) :=
  ⟨rfl, rfl, rfl, rfl, rfl, fun _ _ => rfl, fun _ => rfl, fun _ => rfl, rfl, rfl, rfl⟩

theorem raiseFault_eq (k : FaultKind) (s : State) : raiseFault k s = .next (faultReset k s) := rfl

@[simp] theorem raiseFault_next_iff (k : FaultKind) (s t : State) :
    raiseFault k s = .next t ↔ t = faultReset k s := by
  simp [raiseFault, eq_comm]

/-! ### Skips -/

/-- A skip moves PC alone, by 4 or by 2. -/
theorem skipIf_eq (c : Bool) (s : State) :
    skipIf c s = .next (s.setPc (s.pc + if c then 4#16 else 2#16)) := by
  cases c <;> rfl

/-! ### The ports -/

theorem callDrawSprite_eq (px py : Byte) (rows : List Byte) (s : State) :
    callDrawSprite px py rows s = (Config.spriteCollided s.draws,
      (s.logPort (.drawSprite px py rows (Config.spriteCollided s.draws))).nextDraw) := rfl

theorem callIsKeyPressed_eq (k : KeyCode) (s : State) :
    callIsKeyPressed k s = (Config.keyPressed s.draws k,
      (s.logPort (.keyQuery k (Config.keyPressed s.draws k))).nextDraw) := rfl

theorem callRand8_eq (s : State) :
    callRand8 s = (Config.randomByte s.draws,
      (s.logPort (.randomDraw (Config.randomByte s.draws))).nextDraw) := rfl

/-! ### The stack -/

/-- A push answers the overflow fault at 16, the rest of the instruction below, a refusal above. -/
theorem pushThen_cases (w : Word) (s : State) (rest : State → Result) :
    (s.sp = 16 ∧ pushThen w s rest = raiseFault .stackOverflow s) ∨
    (∃ h : s.sp < 16, pushThen w s rest
      = rest { s with stack := s.stack.set s.sp w h, sp := s.sp + 1 }) ∨
    (16 < s.sp ∧ pushThen w s rest = .refused .spOutOfRange) := by
  unfold pushThen
  split
  · next h => exact .inl ⟨h, rfl⟩
  · split
    · next h => exact .inr (.inl ⟨h, rfl⟩)
    · next h1 h2 => exact .inr (.inr ⟨by omega, rfl⟩)

/-- A pop answers the underflow fault at 0, the rest of the instruction in 1..16, a refusal above. -/
theorem popThen_cases (s : State) (rest : Word → State → Result) :
    (s.sp = 0 ∧ popThen s rest = raiseFault .stackUnderflow s) ∨
    (0 < s.sp ∧ ∃ h : s.sp - 1 < 16, popThen s rest
      = rest (s.stack[s.sp - 1]'h) { s with sp := s.sp - 1 }) ∨
    (16 < s.sp ∧ popThen s rest = .refused .spOutOfRange) := by
  unfold popThen
  split
  · next h => exact .inl ⟨h, rfl⟩
  · split
    · next h0 h => exact .inr (.inl ⟨by omega, h, rfl⟩)
    · next h1 h2 => exact .inr (.inr ⟨by omega, rfl⟩)

/-! ### Access through I -/

theorem withRangeAtI_of_inRange {n : Nat} {s : State} {rest : Result} (h : InRange s.i.toNat n) :
    withRangeAtI n s rest = rest := if_pos h

theorem withRangeAtI_of_not_inRange {n : Nat} {s : State} {rest : Result}
    (h : ¬ InRange s.i.toNat n) : withRangeAtI n s rest = raiseFault .addressRangeFault s := if_neg h

/-- A checked access answers the rest of the instruction or the range fault. -/
theorem withRangeAtI_cases (n : Nat) (s : State) (rest : Result) :
    (InRange s.i.toNat n ∧ withRangeAtI n s rest = rest) ∨
    (¬ InRange s.i.toNat n ∧ withRangeAtI n s rest = raiseFault .addressRangeFault s) := by
  by_cases h : InRange s.i.toNat n
  · exact .inl ⟨h, if_pos h⟩
  · exact .inr ⟨h, if_neg h⟩

/-! ### Registers in blocks -/

@[simp] theorem length_regsUpTo (s : State) (x : Reg) : (s.regsUpTo x).length = x.val + 1 := by
  have := x.isLt
  simp only [State.regsUpTo, List.length_take, Vector.length_toList]
  omega

/-- The `k`-th byte of a block store is V[k]. -/
theorem getElem?_regsUpTo (s : State) (x j : Reg) (h : j ≤ x) :
    (s.regsUpTo x)[j.val]? = some (s.getV j) := by
  have h' : j.val < x.val + 1 := Nat.lt_succ_of_le h
  simp [State.regsUpTo, State.getV, h', Vector.get_eq_getElem]

/-- Which registers a block load writes, and with what. -/
theorem getElem_loadRegs (v : Vector Byte 16) (j k : Nat) (bytes : List Byte) (hk : k < 16) :
    (loadRegs v j bytes)[k] = if j ≤ k then (bytes[k - j]?).getD v[k] else v[k] := by
  induction bytes generalizing v j with
  | nil => simp [loadRegs]
  | cons b rest ih =>
    simp only [loadRegs]
    rw [ih]
    rcases Nat.lt_trichotomy k j with h | h | h
    · have h1 : ¬ j + 1 ≤ k := by omega
      have h2 : ¬ j ≤ k := by omega
      have h3 : j ≠ k := by omega
      simp [h1, h2, h3]
    · subst h; simp
    · have h1 : j + 1 ≤ k := by omega
      have h2 : j ≤ k := by omega
      obtain ⟨d, hd⟩ : ∃ d, k - j = d + 1 := ⟨k - j - 1, by omega⟩
      have h3 : k - (j + 1) = d := by omega
      have h4 : j ≠ k := by omega
      simp [h1, h2, hd, h3, h4]

/-! ### The timers -/

theorem toNat_timerTick (b : Byte) : (timerTick b).toNat = b.toNat - 1 := by
  revert b; decide

theorem toNat_timerTicks (n : Nat) (b : Byte) : (timerTicks n b).toNat = b.toNat - n := by
  unfold timerTicks
  split
  · next h => subst h; simp
  · have := b.isLt
    simp only [BitVec.toNat_ofNat]
    omega

/-- Many ticks at once are the ticks one by one. -/
theorem timerTicks_eq_iterate (n : Nat) (b : Byte) : timerTicks n b = timerTick^[n] b := by
  apply BitVec.eq_of_toNat_eq
  rw [toNat_timerTicks]
  induction n generalizing b with
  | zero => rfl
  | succ n ih => rw [Function.iterate_succ_apply, ← ih, toNat_timerTick]; omega

/-! ### Fetching and stepping -/

theorem fetch_eq (s : State) (h : s.pc.toNat ≤ 0xFFE) :
    fetch s = some [s.mem.read s.pc.toNat, s.mem.read (s.pc.toNat + 1)] := if_pos h

/-- What a step does, whole: refuse, take a fault before the instruction, or run the instruction. -/
theorem step_eq (s : State) :
    step s =
      if s.sp ≤ 16 then
        if s.pc.toNat ≤ 0xFFE then
          match decode [s.mem.read s.pc.toNat, s.mem.read (s.pc.toNat + 1)] with
          | .instr i => exec i (beginStep s)
          | .illegal _ => raiseFault .decodeFault (beginStep s)
        else raiseFault .addressRangeFault (beginStep s)
      else .refused .spOutOfRange := by
  unfold step spInRange fetchDecode
  by_cases hsp : s.sp ≤ 16
  · by_cases hpc : s.pc.toNat ≤ 0xFFE
    · simp only [hsp, hpc, decide_true, if_true, fetch_eq (beginStep s) hpc]
      simp only [beginStep_mem, beginStep_pc]
      cases decode [s.mem.read s.pc.toNat, s.mem.read (s.pc.toNat + 1)] <;> rfl
    · have : fetch (beginStep s) = none := if_neg hpc
      simp [hsp, hpc, this]
  · simp [hsp]

/-! ### Runs -/

/-- A run of one step more is the step and then the run. -/
theorem run_succ_of_next {n : Nat} {s t : State} (h : step s = .next t) :
    Sys2Proof.core.run (n + 1) s = Sys2Proof.core.run n t := by
  have hs : Sys2Proof.core.step s = .next t := h
  simp only [Host.Core.run, hs]

/-! ### Counting calls -/

@[simp] theorem faultCount_faultReset (k : FaultKind) (s : State) :
    (faultReset k s).faultCount = s.faultCount + 1 := by
  rw [State.faultCount, faultReset_portLog, List.countP_cons_of_pos rfl, State.faultCount]

@[simp] theorem hookCount_faultReset (k : FaultKind) (s : State) :
    (faultReset k s).hookCount = s.hookCount := by
  rw [State.hookCount, faultReset_portLog, List.countP_cons_of_neg (by simp [PortEvent.isHookCall]), State.hookCount]

@[simp] theorem faultCount_beginStep (s : State) : (beginStep s).faultCount = s.faultCount := rfl

@[simp] theorem hookCount_beginStep (s : State) : (beginStep s).hookCount = s.hookCount := rfl

end Sys2Proof.Machine
end

