-- ==== Sys2Proof/Laws/Exec.lean ====
section
/-! SUPPORT. Once, everything an instruction can do: `exec_next_cases` says that a meaning that answers
a next state has either taken one fault reset, under its condition of R221, or had the effect that
`OwnEffect` names. Rules over all instructions are short case analyses of it. -/

namespace Sys2Proof.Machine

/-- The shape of an instruction's own effect, fault reset apart: which fields it may write. -/
def OwnEffect (i : Instr) (s t : State) : Prop :=
  match i with
  | .cls => t = (callClearScreen s).advance
  | .ret => ∃ h : s.sp - 1 < 16, 0 < s.sp ∧
      t = State.setPc { s with sp := s.sp - 1 } (s.stack[s.sp - 1] + 2#16)
  | .jp nnn => t = s.setPc (zextAddr nnn)
  | .call nnn => ∃ h : s.sp < 16,
      t = State.setPc { s with stack := s.stack.set s.sp s.pc h, sp := s.sp + 1 } (zextAddr nnn)
  | .seImm _ _ | .sneImm _ _ | .seReg _ _ | .sneReg _ _ =>
      ∃ c : Bool, t = s.setPc (s.pc + if c then 4#16 else 2#16)
  | .sneRegLowN x y n => ∃ c : Bool,
      t = (callTrace (.warn9XYN (encodeWord (.sneRegLowN x y n))) s).setPc
        (s.pc + if c then 4#16 else 2#16)
  | .ldImm x _ | .addImm x _ | .ldReg x _ | .orReg x _ | .andReg x _ | .xorReg x _ | .ldVxDT x =>
      ∃ r, t = (s.setV x r).advance
  | .addReg x _ | .sub x _ | .shr x _ | .subn x _ | .shl x _ =>
      ∃ r f, t = ((s.setV x r).setV flagReg f).advance
  | .ldI nnn => t = (s.setI (zextAddr nnn)).advance
  | .addI _ | .ldF _ => ∃ w, t = (s.setI w).advance
  | .jpV0 nnn => t = s.setPc (zextByte (s.getV 0) + zextAddr nnn)
  | .rnd x _ => ∃ b r, t = (((s.logPort (.randomDraw b)).nextDraw).setV x r).advance
  | .drw x y _ => ∃ rows c f,
      t = (((s.logPort (.drawSprite (s.getV x) (s.getV y) rows c)).nextDraw).setV flagReg f).advance
  | .skp _ | .sknp _ => ∃ (k : KeyCode) (p c : Bool),
      t = ((s.logPort (.keyQuery k p)).nextDraw).setPc (s.pc + if c then 4#16 else 2#16)
  | .ldDTVx x => t = State.advance { s with dt := s.getV x }
  | .ldSTVx x => t = State.advance { s with st := s.getV x }
  | .ldB x => InRange s.i.toNat 3 ∧
      t = State.advance { s with mem := s.mem.writeBytes s.i.toNat (decimalDigits (s.getV x)) }
  | .ldMemStore x => InRange s.i.toNat (x.val + 1) ∧
      t = State.advance { s with mem := s.mem.writeBytes s.i.toNat (s.regsUpTo x) }
  | .ldMemLoad x => InRange s.i.toNat (x.val + 1) ∧
      t = State.advance { s with v := loadRegs s.v 0 (s.mem.readBytes s.i.toNat (x.val + 1)) }

/-- R221's range condition is the failure of the checked access. -/
theorem not_inRange_iff {a n : Nat} (h : 1 ≤ n) : ¬ InRange a n ↔ a + n - 1 > 0xFFF := by
  unfold InRange; omega

/-- A checked access that answers a next state has taken the range fault or the rest's effect. -/
theorem withRangeAtI_next {n : Nat} {s t u : State} (h : withRangeAtI n s (.next u) = .next t) :
    (InRange s.i.toNat n ∧ t = u) ∨
    (¬ InRange s.i.toNat n ∧ t = faultReset .addressRangeFault s) := by
  rcases withRangeAtI_cases n s (.next u) with ⟨hr, e⟩ | ⟨hr, e⟩
  · rw [e] at h; cases h; exact .inl ⟨hr, rfl⟩
  · rw [e, raiseFault_next_iff] at h; exact .inr ⟨hr, h⟩

theorem execRet_next {s t : State} (h : execRet s = .next t) :
    (∃ k, t = faultReset k s ∧ ownFault .ret s = some k) ∨
    (ownFault .ret s = none ∧ OwnEffect .ret s t) := by
  rcases popThen_cases s fun w t => .next (t.setPc (w + 2#16)) with ⟨g, e⟩ | ⟨g, g', e⟩ | ⟨g, e⟩
  · rw [execRet, e, raiseFault_next_iff] at h
    exact .inl ⟨_, h, by simp [ownFault, g]⟩
  · rw [execRet, e] at h; cases h
    exact .inr ⟨by simp [ownFault]; omega, g', g, rfl⟩
  · rw [execRet, e] at h; cases h

theorem execCall_next {nnn : Addr12} {s t : State} (h : execCall nnn s = .next t) :
    (∃ k, t = faultReset k s ∧ ownFault (.call nnn) s = some k) ∨
    (ownFault (.call nnn) s = none ∧ OwnEffect (.call nnn) s t) := by
  rcases pushThen_cases s.pc s fun t => .next (t.setPc (zextAddr nnn)) with ⟨g, e⟩ | ⟨g, e⟩ | ⟨g, e⟩
  · rw [execCall, e, raiseFault_next_iff] at h
    exact .inl ⟨_, h, by simp [ownFault, g]⟩
  · rw [execCall, e] at h; cases h
    exact .inr ⟨by simp [ownFault]; omega, g, rfl⟩
  · rw [execCall, e] at h; cases h

theorem execDrw_next {x y : Reg} {n : Nibble} {s t : State} (h : execDrw x y n s = .next t) :
    (∃ k, t = faultReset k s ∧ ownFault (.drw x y n) s = some k) ∨
    (ownFault (.drw x y n) s = none ∧ OwnEffect (.drw x y n) s t) := by
  unfold execDrw at h
  split at h
  · next hn => cases h; exact .inr ⟨by simp [ownFault, hn], [], _, _, rfl⟩
  · next hn =>
    have hpos : 1 ≤ n.toNat :=
      Nat.one_le_iff_ne_zero.mpr fun h0 => hn (BitVec.eq_of_toNat_eq h0)
    rcases withRangeAtI_next h with ⟨hr, ht⟩ | ⟨hr, ht⟩
    · refine .inr ⟨?_, _, _, _, ht⟩
      simp only [ownFault]
      exact if_neg fun hc => (not_inRange_iff hpos).mpr hc.2 hr
    · exact .inl ⟨_, ht, if_pos ⟨hpos, (not_inRange_iff hpos).mp hr⟩⟩

/-- Every instruction that answers a next state: one fault reset under its condition, or its own effect. -/
theorem exec_next_cases {i : Instr} {s t : State} (h : exec i s = .next t) :
    (∃ k, t = faultReset k s ∧ ownFault i s = some k) ∨
    (ownFault i s = none ∧ OwnEffect i s t) := by
  have range {n : Nat} (hn : 1 ≤ n) : ¬ InRange s.i.toNat n → s.i.toNat + n - 1 > 0xFFF :=
    (not_inRange_iff hn).mp
  cases i
  case ret => exact execRet_next h
  case call => exact execCall_next h
  case drw => exact execDrw_next h
  case ldB =>
    rcases withRangeAtI_next h with ⟨hr, ht⟩ | ⟨hr, ht⟩
    · refine .inr ⟨if_neg ?_, hr, ht⟩; have := hr.2; omega
    · refine .inl ⟨_, ht, if_pos ?_⟩; have := range (by omega) hr; omega
  case ldMemStore =>
    rcases withRangeAtI_next h with ⟨hr, ht⟩ | ⟨hr, ht⟩
    · refine .inr ⟨if_neg ?_, hr, ht⟩; have := hr.2; omega
    · refine .inl ⟨_, ht, if_pos ?_⟩; have := range (by omega) hr; omega
  case ldMemLoad =>
    rcases withRangeAtI_next h with ⟨hr, ht⟩ | ⟨hr, ht⟩
    · refine .inr ⟨if_neg ?_, hr, ht⟩; have := hr.2; omega
    · refine .inl ⟨_, ht, if_pos ?_⟩; have := range (by omega) hr; omega
  case seImm => rw [exec, execSeImm, skipIf_eq] at h; cases h; exact .inr ⟨rfl, _, rfl⟩
  case sneImm => rw [exec, execSneImm, skipIf_eq] at h; cases h; exact .inr ⟨rfl, _, rfl⟩
  case seReg => rw [exec, execSeReg, skipIf_eq] at h; cases h; exact .inr ⟨rfl, _, rfl⟩
  case sneReg => rw [exec, execSneReg, skipIf_eq] at h; cases h; exact .inr ⟨rfl, _, rfl⟩
  case sneRegLowN => rw [exec, execSneRegLowN, skipIf_eq] at h; cases h; exact .inr ⟨rfl, _, rfl⟩
  case skp => simp only [exec, execSkp, skipIf_eq] at h; cases h; exact .inr ⟨rfl, _, _, _, rfl⟩
  case sknp => simp only [exec, execSknp, skipIf_eq] at h; cases h; exact .inr ⟨rfl, _, _, _, rfl⟩
  all_goals
    cases h
    first
      | exact .inr ⟨rfl, rfl⟩
      | exact .inr ⟨rfl, _, rfl⟩
      | exact .inr ⟨rfl, _, _, rfl⟩

end Sys2Proof.Machine
end

