-- ==== Sys2Proof/Laws/PerInstr.lean ====
section
/-! SUPPORT. The family TableRow: the encoder's word of each instruction lies in its row of the opcode
table, by the row's mask and match (30_encoding.md R75, opcode_table.json). -/

namespace Sys2Proof.Laws.TableRow

/-- The mask of an instruction's row: 1 where the table fixes the bit. -/
def mask (i : Instr) : Nat :=
  match i with
  | .cls | .ret => 0xFFFF
  | .jp _ | .call _ | .seImm _ _ | .sneImm _ _ | .ldImm _ _ | .addImm _ _ | .sneRegLowN _ _ _
  | .ldI _ | .jpV0 _ | .rnd _ _ | .drw _ _ _ => 0xF000
  | .seReg _ _ | .ldReg _ _ | .orReg _ _ | .andReg _ _ | .xorReg _ _ | .addReg _ _ | .sub _ _
  | .shr _ _ | .subn _ _ | .shl _ _ | .sneReg _ _ => 0xF00F
  | .skp _ | .sknp _ | .ldVxDT _ | .ldDTVx _ | .ldSTVx _ | .addI _ | .ldF _ | .ldB _
  | .ldMemStore _ | .ldMemLoad _ => 0xF0FF

/-- The match of an instruction's row: the fixed bits. -/
def fixedBits (i : Instr) : Nat :=
  match i with
  | .cls => 0x00E0
  | .ret => 0x00EE
  | .jp _ => 0x1000
  | .call _ => 0x2000
  | .seImm _ _ => 0x3000
  | .sneImm _ _ => 0x4000
  | .seReg _ _ => 0x5000
  | .ldImm _ _ => 0x6000
  | .addImm _ _ => 0x7000
  | .ldReg _ _ => 0x8000
  | .orReg _ _ => 0x8001
  | .andReg _ _ => 0x8002
  | .xorReg _ _ => 0x8003
  | .addReg _ _ => 0x8004
  | .sub _ _ => 0x8005
  | .shr _ _ => 0x8006
  | .subn _ _ => 0x8007
  | .shl _ _ => 0x800E
  | .sneReg _ _ => 0x9000
  | .sneRegLowN _ _ _ => 0x9000
  | .ldI _ => 0xA000
  | .jpV0 _ => 0xB000
  | .rnd _ _ => 0xC000
  | .drw _ _ _ => 0xD000
  | .skp _ => 0xE09E
  | .sknp _ => 0xE0A1
  | .ldVxDT _ => 0xF007
  | .ldDTVx _ => 0xF015
  | .ldSTVx _ => 0xF018
  | .addI _ => 0xF01E
  | .ldF _ => 0xF029
  | .ldB _ => 0xF033
  | .ldMemStore _ => 0xF055
  | .ldMemLoad _ => 0xF065

/-- The word of `i`, masked as its row says, is its row's match. -/
def Statement (i : Instr) : Prop :=
  encodeWord i &&& BitVec.ofNat 16 (mask i) = BitVec.ofNat 16 (fixedBits i)

/-- A masked concatenation is masked part by part; the two masks of R75 keep a part whole or clear it. -/
theorem append_mask {v w : Nat} {x m : BitVec v} {y n : BitVec w} {x' : BitVec v} {y' : BitVec w}
    (hx : x &&& m = x') (hy : y &&& n = y') : (x ++ y) &&& (m ++ n) = x' ++ y' := by
  rw [BitVec.and_append, hx, hy]

theorem nibble_keep (b : Nibble) : b &&& 0xF#4 = b := BitVec.and_allOnes

theorem byte_keep (b : Byte) : b &&& 0xFF#8 = b := BitVec.and_allOnes

/-- A word of the form ffff aaaa aaaa aaaa, masked by 0xF000. -/
theorem formNNN_mask (f : Nibble) (nnn : Addr12) : formNNN f nnn &&& 0xF000#16 = f ++ 0#12 :=
  append_mask (n := 0#12) (nibble_keep f) BitVec.and_zero

/-- A word of the form ffff xxxx bbbb bbbb, masked by 0xF000. -/
theorem formXNN_mask (f : Nibble) (x : Reg) (nn : Byte) :
    formXNN f x nn &&& 0xF000#16 = f ++ 0#4 ++ 0#8 :=
  append_mask (n := 0#8) (append_mask (n := 0#4) (nibble_keep f) BitVec.and_zero) BitVec.and_zero

/-- The same, masked by 0xF0FF. -/
theorem formXNN_maskLow (f : Nibble) (x : Reg) (nn : Byte) :
    formXNN f x nn &&& 0xF0FF#16 = f ++ 0#4 ++ nn :=
  append_mask (append_mask (n := 0#4) (nibble_keep f) BitVec.and_zero) (byte_keep nn)

/-- A word of the form ffff xxxx yyyy nnnn, masked by 0xF00F. -/
theorem formXYN_maskLow (f : Nibble) (x y : Reg) (n : Nibble) :
    formXYN f x y n &&& 0xF00F#16 = f ++ 0#4 ++ 0#4 ++ n :=
  append_mask
    (append_mask (n := 0#4) (append_mask (n := 0#4) (nibble_keep f) BitVec.and_zero) BitVec.and_zero)
    (nibble_keep n)

/-- The same, masked by 0xF000. -/
theorem formXYN_mask (f : Nibble) (x y : Reg) (n : Nibble) :
    formXYN f x y n &&& 0xF000#16 = f ++ 0#4 ++ 0#4 ++ 0#4 :=
  append_mask (n := 0#4)
    (append_mask (n := 0#4) (append_mask (n := 0#4) (nibble_keep f) BitVec.and_zero) BitVec.and_zero)
    BitVec.and_zero

theorem cls : Statement .cls := rfl

theorem ret : Statement .ret := rfl

theorem jp (nnn : Addr12) : Statement (.jp nnn) :=
  (formNNN_mask _ nnn).trans (by simp only [fixedBits]; decide)

theorem call (nnn : Addr12) : Statement (.call nnn) :=
  (formNNN_mask _ nnn).trans (by simp only [fixedBits]; decide)

theorem seImm (x : Reg) (nn : Byte) : Statement (.seImm x nn) :=
  (formXNN_mask _ x nn).trans (by simp only [fixedBits]; decide)

theorem sneImm (x : Reg) (nn : Byte) : Statement (.sneImm x nn) :=
  (formXNN_mask _ x nn).trans (by simp only [fixedBits]; decide)

theorem seReg (x y : Reg) : Statement (.seReg x y) :=
  (formXYN_maskLow _ x y _).trans (by simp only [fixedBits]; decide)

theorem ldImm (x : Reg) (nn : Byte) : Statement (.ldImm x nn) :=
  (formXNN_mask _ x nn).trans (by simp only [fixedBits]; decide)

theorem addImm (x : Reg) (nn : Byte) : Statement (.addImm x nn) :=
  (formXNN_mask _ x nn).trans (by simp only [fixedBits]; decide)

theorem ldReg (x y : Reg) : Statement (.ldReg x y) :=
  (formXYN_maskLow _ x y _).trans (by simp only [fixedBits]; decide)

theorem orReg (x y : Reg) : Statement (.orReg x y) :=
  (formXYN_maskLow _ x y _).trans (by simp only [fixedBits]; decide)

theorem andReg (x y : Reg) : Statement (.andReg x y) :=
  (formXYN_maskLow _ x y _).trans (by simp only [fixedBits]; decide)

theorem xorReg (x y : Reg) : Statement (.xorReg x y) :=
  (formXYN_maskLow _ x y _).trans (by simp only [fixedBits]; decide)

theorem addReg (x y : Reg) : Statement (.addReg x y) :=
  (formXYN_maskLow _ x y _).trans (by simp only [fixedBits]; decide)

theorem sub (x y : Reg) : Statement (.sub x y) :=
  (formXYN_maskLow _ x y _).trans (by simp only [fixedBits]; decide)

theorem shr (x y : Reg) : Statement (.shr x y) :=
  (formXYN_maskLow _ x y _).trans (by simp only [fixedBits]; decide)

theorem subn (x y : Reg) : Statement (.subn x y) :=
  (formXYN_maskLow _ x y _).trans (by simp only [fixedBits]; decide)

theorem shl (x y : Reg) : Statement (.shl x y) :=
  (formXYN_maskLow _ x y _).trans (by simp only [fixedBits]; decide)

theorem sneReg (x y : Reg) : Statement (.sneReg x y) :=
  (formXYN_maskLow _ x y _).trans (by simp only [fixedBits]; decide)

theorem sneRegLowN (x y : Reg) (n : Nibble) : Statement (.sneRegLowN x y n) :=
  (formXYN_mask _ x y _).trans (by simp only [fixedBits]; decide)

theorem ldI (nnn : Addr12) : Statement (.ldI nnn) :=
  (formNNN_mask _ nnn).trans (by simp only [fixedBits]; decide)

theorem jpV0 (nnn : Addr12) : Statement (.jpV0 nnn) :=
  (formNNN_mask _ nnn).trans (by simp only [fixedBits]; decide)

theorem rnd (x : Reg) (nn : Byte) : Statement (.rnd x nn) :=
  (formXNN_mask _ x nn).trans (by simp only [fixedBits]; decide)

theorem drw (x y : Reg) (n : Nibble) : Statement (.drw x y n) :=
  (formXYN_mask _ x y _).trans (by simp only [fixedBits]; decide)

theorem skp (x : Reg) : Statement (.skp x) :=
  (formXNN_maskLow _ x _).trans (by simp only [fixedBits]; decide)

theorem sknp (x : Reg) : Statement (.sknp x) :=
  (formXNN_maskLow _ x _).trans (by simp only [fixedBits]; decide)

theorem ldVxDT (x : Reg) : Statement (.ldVxDT x) :=
  (formXNN_maskLow _ x _).trans (by simp only [fixedBits]; decide)

theorem ldDTVx (x : Reg) : Statement (.ldDTVx x) :=
  (formXNN_maskLow _ x _).trans (by simp only [fixedBits]; decide)

theorem ldSTVx (x : Reg) : Statement (.ldSTVx x) :=
  (formXNN_maskLow _ x _).trans (by simp only [fixedBits]; decide)

theorem addI (x : Reg) : Statement (.addI x) :=
  (formXNN_maskLow _ x _).trans (by simp only [fixedBits]; decide)

theorem ldF (x : Reg) : Statement (.ldF x) :=
  (formXNN_maskLow _ x _).trans (by simp only [fixedBits]; decide)

theorem ldB (x : Reg) : Statement (.ldB x) :=
  (formXNN_maskLow _ x _).trans (by simp only [fixedBits]; decide)

theorem ldMemStore (x : Reg) : Statement (.ldMemStore x) :=
  (formXNN_maskLow _ x _).trans (by simp only [fixedBits]; decide)

theorem ldMemLoad (x : Reg) : Statement (.ldMemLoad x) :=
  (formXNN_maskLow _ x _).trans (by simp only [fixedBits]; decide)

end Sys2Proof.Laws.TableRow
end

