-- ==== Sys2Proof/Tests/Slice0.lean ====
section
/-! SUPPORT. Tests: the expected results are the spec's (the opcode table's encodings and the vectors of
95_test_vectors.md, named in each comment), and one witness for each statement that has hypotheses. -/

namespace Sys2Proof.Tests

open Sys2Proof.Machine

/-! ### Well-formedness -/

theorem test_lowN_zero_is_ill_formed : (Instr.sneRegLowN 1 2 0x0#4).wellFormed = false := by decide

theorem test_lowN_nonzero_is_well_formed : (Instr.sneRegLowN 1 2 0xF#4).wellFormed = true := by decide

/-! ### Decoding: one word per constructor, bit by bit from the table's encoding strings -/

theorem test_decode_family0 :
    decodeWord 0b0000000011100000#16 = .instr .cls ∧ decodeWord 0b0000000011101110#16 = .instr .ret := by
  decide

theorem test_decode_jumps :
    decodeWord 0b0001001000110100#16 = .instr (.jp 0x234#12)
    ∧ decodeWord 0b0010001000010000#16 = .instr (.call 0x210#12)
    ∧ decodeWord 0b1011001100000000#16 = .instr (.jpV0 0x300#12)
    ∧ decodeWord 0b1010000100100011#16 = .instr (.ldI 0x123#12) := by decide

theorem test_decode_skips :
    decodeWord 0b0011101000000101#16 = .instr (.seImm 0xA 0x05#8)
    ∧ decodeWord 0b0100000100000110#16 = .instr (.sneImm 1 0x06#8)
    ∧ decodeWord 0b0101000100100000#16 = .instr (.seReg 1 2)
    ∧ decodeWord 0b1001000100100000#16 = .instr (.sneReg 1 2)
    ∧ decodeWord 0b1001000100101111#16 = .instr (.sneRegLowN 1 2 0xF#4) := by decide

theorem test_decode_immediates :
    decodeWord 0b0110111110101010#16 = .instr (.ldImm 0xF 0xAA#8)
    ∧ decodeWord 0b0111001100000011#16 = .instr (.addImm 3 0x03#8)
    ∧ decodeWord 0b1100001000001111#16 = .instr (.rnd 2 0x0F#8) := by decide

theorem test_decode_alu :
    decodeWord 0b1000000000010000#16 = .instr (.ldReg 0 1)
    ∧ decodeWord 0b1000000000010001#16 = .instr (.orReg 0 1)
    ∧ decodeWord 0b1000000000010010#16 = .instr (.andReg 0 1)
    ∧ decodeWord 0b1000000000010011#16 = .instr (.xorReg 0 1)
    ∧ decodeWord 0b1000111100010100#16 = .instr (.addReg 0xF 1)
    ∧ decodeWord 0b1000001000110101#16 = .instr (.sub 2 3)
    ∧ decodeWord 0b1000010001010110#16 = .instr (.shr 4 5)
    ∧ decodeWord 0b1000000000010111#16 = .instr (.subn 0 1)
    ∧ decodeWord 0b1000000001111110#16 = .instr (.shl 0 7) := by decide

theorem test_decode_display_input :
    decodeWord 0b1101000000010010#16 = .instr (.drw 0 1 0x2#4)
    ∧ decodeWord 0b1110010110011110#16 = .instr (.skp 5)
    ∧ decodeWord 0b1110010110100001#16 = .instr (.sknp 5) := by decide

theorem test_decode_familyF :
    decodeWord 0b1111001100000111#16 = .instr (.ldVxDT 3)
    ∧ decodeWord 0b1111001100010101#16 = .instr (.ldDTVx 3)
    ∧ decodeWord 0b1111000000011000#16 = .instr (.ldSTVx 0)
    ∧ decodeWord 0b1111001000011110#16 = .instr (.addI 2)
    ∧ decodeWord 0b1111000100101001#16 = .instr (.ldF 1)
    ∧ decodeWord 0b1111000000110011#16 = .instr (.ldB 0)
    ∧ decodeWord 0b1111001001010101#16 = .instr (.ldMemStore 2)
    ∧ decodeWord 0b1111001001100101#16 = .instr (.ldMemLoad 2) := by decide

/-- V-DEC-3 to V-DEC-7. -/
theorem test_decode_illegal :
    decodeWord 0x00E1#16 = .illegal .family0 ∧ decodeWord 0x5121#16 = .illegal .family5LowNibble
    ∧ decodeWord 0x8008#16 = .illegal .family8SubOp ∧ decodeWord 0x800F#16 = .illegal .family8SubOp
    ∧ decodeWord 0xE09F#16 = .illegal .familyELowByte ∧ decodeWord 0xF00A#16 = .illegal .familyFLowByte
    ∧ decode [0x60#8] = .illegal .truncated := by decide

/-- Big-endian: the first byte is the high one (R51). -/
theorem test_decode_byte_order : decode [0x60#8, 0x05#8] = .instr (.ldImm 0 0x05#8) := by decide

theorem test_decode_table_word : decodeTableWord 16 0xF265 = some (.ldMemLoad 2) := by decide

/-! ### One step on a small state -/

/-- The construction state with the word `w` at 0x200 and PC = 0x200. -/
def at200 (w : Word) : State := placeWord { State.reset with pc := 0x200#16 } w

/-- The same with V0, V1 and VF set. -/
def withV (w : Word) (v0 v1 vf : Byte) : State :=
  (((at200 w).setV 0 v0).setV 1 v1).setV 0xF vf

/-- The state a result answers, if any. -/
def nextOf (r : Result) : Option State :=
  match r with
  | .next s => some s
  | .fault _ => none
  | .refused _ => none

/-- One field of the state after one step. -/
def after {α : Type} (s : State) (f : State → α) : Option α := (nextOf (step s)).map f

/-- V0, V1, VF and PC after one step. -/
def regsAfter (s : State) : Option (Byte × Byte × Byte × Word) :=
  after s fun t => (t.getV 0, t.getV 1, t.getV 0xF, t.pc)

/-- E7. -/
theorem test_ld_imm : regsAfter (at200 0x6005#16) = some (0x05#8, 0x00#8, 0x00#8, 0x202#16) := by decide

/-- V-FETCH-1 and V-FETCH-4: the last cell and an odd PC. -/
theorem test_fetch_last_and_odd :
    after (placeWord { State.reset with pc := 0xFFE#16 } 0x6007#16) (fun t => (t.getV 0, t.pc))
      = some (0x07#8, 0x1000#16)
    ∧ after (placeWord { State.reset with pc := 0x201#16 } 0x612A#16) (fun t => (t.getV 1, t.pc))
      = some (0x2A#8, 0x203#16) := by decide

/-- V-FETCH-3. -/
theorem test_fetch_past_the_bound :
    after { State.reset with pc := 0xFFF#16, i := 0x345#16 } (fun t => (t.pc, t.i, t.portLog))
      = some (0#16, 0#16, [.trace (.faultTrace .addressRangeFault)]) := by decide

/-- V-DEC-2. -/
theorem test_decode_fault_resets :
    after { at200 0x0123#16 with i := 0x300#16, sp := 2 } (fun t => (t.pc, t.i, t.sp, t.portLog))
      = some (0#16, 0#16, 0, [.trace (.faultTrace .decodeFault)]) := by decide

/-- V-CLS-1. -/
theorem test_cls : after (at200 0x00E0#16) (fun t => (t.pc, t.portLog)) = some (0x202#16, [.clearScreen]) := by
  decide

/-- V-RET-2 and V-RET-4. -/
theorem test_ret :
    after { at200 0x00EE#16 with sp := 16, stack := State.reset.stack.set 15 0x4A0#16 }
      (fun t => (t.pc, t.sp)) = some (0x4A2#16, 15)
    ∧ after { at200 0x00EE#16 with sp := 1, stack := State.reset.stack.set 0 0xFFFE#16 }
      (fun t => (t.pc, t.sp)) = some (0x0000#16, 0) := by decide

/-- V-RET-3. -/
theorem test_ret_underflow :
    after { at200 0x00EE#16 with i := 0x345#16 } (fun t => (t.pc, t.i, t.portLog))
      = some (0#16, 0#16, [.trace (.faultTrace .stackUnderflow)]) := by decide

/-- V-JP-3 and V-JPV0-2. -/
theorem test_jumps :
    after (at200 0x1201#16) (fun t => t.pc) = some 0x201#16
    ∧ after (withV 0xBFFF#16 0xFF#8 0#8 0#8) (fun t => t.pc) = some 0x10FE#16 := by decide

/-- E8. -/
theorem test_call :
    after (at200 0x2210#16) (fun t => (t.pc, t.sp, t.stack.get 0)) = some (0x210#16, 1, 0x200#16) := by
  decide

/-- V-CALL-3. -/
theorem test_call_overflow :
    after { at200 0x2400#16 with sp := 16 } (fun t => (t.pc, t.sp, t.portLog))
      = some (0#16, 0, [.trace (.faultTrace .stackOverflow)]) := by decide

/-- V-SE-3 and V-SNE-1 (on V1 = 5). -/
theorem test_skips_on_immediates :
    after (at200 0x3F00#16) (fun t => t.pc) = some 0x204#16
    ∧ after (withV 0x4106#16 0#8 5#8 0#8) (fun t => t.pc) = some 0x204#16
    ∧ after (withV 0x4105#16 0#8 5#8 0#8) (fun t => t.pc) = some 0x202#16 := by decide

/-- V-SER-3, V-SNER-2 and V-SNER-3, on V0 and V1. -/
theorem test_skips_on_registers :
    after (withV 0x5110#16 1#8 2#8 0#8) (fun t => t.pc) = some 0x204#16
    ∧ after (withV 0x9010#16 2#8 2#8 0#8) (fun t => t.pc) = some 0x202#16
    ∧ after (withV 0x9011#16 1#8 2#8 0#8) (fun t => (t.pc, t.portLog))
      = some (0x204#16, [.trace (.warn9XYN 0x9011#16)]) := by decide

/-- V-ADDI-2: no carry flag. -/
theorem test_add_imm : regsAfter (withV 0x7001#16 0xFF#8 0#8 0#8) = some (0#8, 0#8, 0#8, 0x202#16) := by
  decide

/-- V-MOV-1, V-OR-1, V-AND-1, V-XOR-1: VF stays. -/
theorem test_copy_and_logic :
    regsAfter (withV 0x8010#16 0x00#8 0x42#8 7#8) = some (0x42#8, 0x42#8, 7#8, 0x202#16)
    ∧ regsAfter (withV 0x8011#16 0xF0#8 0x3C#8 7#8) = some (0xFC#8, 0x3C#8, 7#8, 0x202#16)
    ∧ regsAfter (withV 0x8012#16 0xF0#8 0x3C#8 7#8) = some (0x30#8, 0x3C#8, 7#8, 0x202#16)
    ∧ regsAfter (withV 0x8013#16 0xF0#8 0x3C#8 7#8) = some (0xCC#8, 0x3C#8, 7#8, 0x202#16) := by decide

/-- V-ADD-1, V-ADD-3 and V-ADD-8 (y = 0xF). -/
theorem test_add_reg :
    regsAfter (withV 0x8014#16 0xFF#8 0x01#8 0#8) = some (0x00#8, 0x01#8, 1#8, 0x202#16)
    ∧ regsAfter (withV 0x8014#16 0x7F#8 0x80#8 1#8) = some (0xFF#8, 0x80#8, 0#8, 0x202#16)
    ∧ regsAfter (withV 0x80F4#16 0x01#8 0x00#8 0xFF#8) = some (0x00#8, 0x00#8, 1#8, 0x202#16) := by decide

/-- V-SUB-3 (strict) and V-SUB-4, V-SUBN-1. -/
theorem test_sub_subn :
    regsAfter (withV 0x8015#16 0x05#8 0x05#8 1#8) = some (0x00#8, 0x05#8, 0#8, 0x202#16)
    ∧ regsAfter (withV 0x8015#16 0x00#8 0xFF#8 1#8) = some (0x01#8, 0xFF#8, 0#8, 0x202#16)
    ∧ regsAfter (withV 0x8017#16 0x03#8 0x05#8 0#8) = some (0x02#8, 0x05#8, 1#8, 0x202#16) := by decide

/-- V-SHR-2, V-SHL-1 and V-SHR-5, V-SHL-4 (x = 0xF). -/
theorem test_shifts :
    regsAfter (withV 0x8016#16 0x01#8 0xFF#8 0#8) = some (0x00#8, 0xFF#8, 1#8, 0x202#16)
    ∧ regsAfter (withV 0x801E#16 0x81#8 0xFF#8 0#8) = some (0x02#8, 0xFF#8, 1#8, 0x202#16)
    ∧ regsAfter (withV 0x8F06#16 0#8 0#8 0x03#8) = some (0#8, 0#8, 1#8, 0x202#16)
    ∧ regsAfter (withV 0x8FFE#16 0#8 0#8 0x80#8) = some (0#8, 0#8, 1#8, 0x202#16) := by decide

/-- V-ADD-6, V-ADD-7, V-SUB-6: the flag is written last. -/
theorem test_flag_last :
    regsAfter (withV 0x8FF4#16 0#8 0#8 0x80#8) = some (0#8, 0#8, 1#8, 0x202#16)
    ∧ regsAfter (withV 0x8F14#16 0#8 0x01#8 0x10#8) = some (0#8, 0x01#8, 0#8, 0x202#16)
    ∧ regsAfter (withV 0x8F15#16 0#8 0x02#8 0x09#8) = some (0#8, 0x02#8, 1#8, 0x202#16) := by decide

/-- V-LDI-1 and V-ADDI-I-3. -/
theorem test_index :
    after { at200 0xA123#16 with i := 0xFFFF#16 } (fun t => (t.i, t.pc)) = some (0x0123#16, 0x202#16)
    ∧ after { withV 0xF01E#16 1#8 0#8 0#8 with i := 0xFFFF#16 } (fun t => (t.i, t.getV 0xF))
      = some (0x0000#16, 0#8) := by decide

/-- V-RND-1, whatever the draw is. -/
theorem test_rnd : after (at200 0xC20F#16) (fun t => t.getV 2) = some (Config.randomByte 0 &&& 0x0F#8) := rfl

/-- The operands of a draw_sprite call. -/
def spriteOf (s : State) : List (Byte × Byte × List Byte) :=
  s.portLog.map fun e =>
    match e with
    | .drawSprite px py rows _ => (px, py, rows)
    | .clearScreen | .keyQuery _ _ | .randomDraw _ | .trace _ => (0#8, 0#8, [])

/-- V-DRW-4 and V-DRW-5. -/
theorem test_drw_rows :
    after { withV 0xD011#16 3#8 4#8 0#8 with
        i := 0xFFF#16, mem := (at200 0xD011#16).mem.write 0xFFF 0x80#8 } spriteOf
      = some [(3#8, 4#8, [0x80#8])]
    ∧ after { withV 0xD010#16 3#8 4#8 0#8 with i := 0x1234#16 } spriteOf = some [(3#8, 4#8, [])] := by decide

/-- V-DRW-3. -/
theorem test_drw_out_of_range :
    after { withV 0xD012#16 0#8 0#8 7#8 with i := 0xFFF#16 } (fun t => (t.portLog, t.getV 0xF))
      = some ([.trace (.faultTrace .addressRangeFault)], 7#8) := by decide

/-- V-SKP-3: V[x] = 0x1A asks for key A, once. -/
theorem test_skp_masks_the_key_code :
    lowNibble 0x1A#8 = 0xA ∧ (callIsKeyPressed (lowNibble 0x1A#8) State.reset).2.portLog
      = [.keyQuery 0xA (Config.keyPressed 0 0xA)] := ⟨by decide, rfl⟩

/-- V-DT-2 and V-ST-1. -/
theorem test_timer_writes :
    after (withV 0xF015#16 0x3C#8 0#8 0#8) (fun t => (t.dt, t.st)) = some (0x3C#8, 0#8)
    ∧ after (withV 0xF018#16 0x10#8 0#8 0#8) (fun t => (t.dt, t.st)) = some (0#8, 0x10#8) := by decide

/-- V-DT-1, on the meaning itself: no tick falls inside an instruction. -/
theorem test_timer_read :
    (nextOf (exec (.ldVxDT 3) { State.reset with dt := 0x3C#8 })).map (fun t => t.getV 3) = some 0x3C#8 := by
  decide

/-- V-TMR-1. -/
theorem test_timer_ticks : timerTicks 3 2#8 = 0#8 ∧ timerTicks 3 0#8 = 0#8 ∧ timerTick 2#8 = 1#8 := by decide

/-- V-FONT-1 and V-FONT-2. -/
theorem test_ld_f :
    after (withV 0xF129#16 0#8 0x3A#8 0#8) (fun t => t.i)
      = some (BitVec.ofNat 16 (Config.fontBase.val + 50)) := rfl

/-- V-BCD-5 and V-BCD-6. -/
theorem test_ld_b :
    after { withV 0xF033#16 0xFF#8 0#8 0#8 with i := 0xFFD#16 } (fun t => t.mem.readBytes 0xFFD 3)
      = some [2#8, 5#8, 5#8]
    ∧ after { withV 0xF033#16 0xFF#8 0#8 0#8 with i := 0xFFE#16 }
      (fun t => (t.mem.readBytes 0xFFD 3, t.portLog))
      = some ([0#8, 0#8, 0#8], [.trace (.faultTrace .addressRangeFault)]) := by decide

/-- V-STM-1 and V-STM-4. -/
theorem test_block_store :
    after { withV 0xF155#16 1#8 2#8 0#8 with i := 0x300#16 } (fun t => (t.mem.readBytes 0x300 3, t.i))
      = some ([1#8, 2#8, 0#8], 0x300#16)
    ∧ after { withV 0xF155#16 1#8 2#8 0#8 with i := 0xFFFF#16 } (fun t => (t.mem.read 0, t.portLog))
      = some (0#8, [.trace (.faultTrace .addressRangeFault)]) := by decide

/-- V-LDM-3 and V-LDM-4, the byte of the opcode itself among those loaded. -/
theorem test_block_load :
    after { at200 0xFF65#16 with i := 0x1F2#16 } (fun t => (t.getV 0xE, t.getV 0xF, t.getV 0))
      = some (0xFF#8, 0x65#8, 0#8)
    ∧ after { withV 0xFF65#16 1#8 0x11#8 0#8 with i := 0xFF1#16 } (fun t => (t.getV 0, t.getV 1, t.pc))
      = some (1#8, 0x11#8, 0#16) := by decide

/-- V-RST-2. -/
theorem test_full_reset :
    fullReset { withV 0x6001#16 1#8 0#8 0#8 with dt := 5#8, pc := 0x300#16, sp := 2 } = State.reset := by
  decide

/-- Writing 0, which an unlisted cell reads as, takes the cell off the list. -/
theorem test_memory_canonical :
    (Memory.write [(1, 2#8), (3, 4#8)] 2 9#8) = [(1, 2#8), (2, 9#8), (3, 4#8)]
    ∧ (Memory.write [(1, 2#8), (3, 4#8)] 1 0#8) = [(3, 4#8)] := by decide

theorem test_conventional_font_size : conventionalFont.length = 80 := by decide

/-! ### Witnesses: states and operands that meet the hypotheses of the statements -/

theorem witness_DecodeOfEncodeIsIdentity : (Instr.sneRegLowN 0 15 0x1#4).wellFormed = true := by decide

theorem witness_LegalWordIsTheWordOfItsInstruction : decodeWord 0x9FF1#16 = .instr (.sneRegLowN 15 15 1#4) := by
  decide

theorem witness_StepRunsTheDecodedInstruction :
    let s := placeWord { State.reset with pc := 0xFFE#16, sp := 16 } 0x6005#16
    s.sp ≤ 16 ∧ s.pc.toNat ≤ 0xFFE
      ∧ decode [s.mem.read s.pc.toNat, s.mem.read (s.pc.toNat + 1)] = .instr (.ldImm 0 5#8) := by decide

theorem witness_FetchPastTheBoundTakesTheRangeFault :
    let s := { State.reset with pc := 0xFFF#16 }
    s.sp ≤ 16 ∧ 0xFFE < s.pc.toNat := by decide

/-- The premises of IllegalWordTakesTheDecodeFault up to its clause on the word. -/
abbrev HoldsWord (s : State) (w : Word) : Prop :=
  s.sp ≤ 16 ∧ s.pc.toNat ≤ 0xFFE
    ∧ w.toNat = (s.mem.read s.pc.toNat).toNat * 256 + (s.mem.read (s.pc.toNat + 1)).toNat

theorem witness_IllegalWordTakesTheDecodeFault_family0 :
    HoldsWord (at200 0x0FFF#16) 0x0FFF#16 ∧ (0x0FFF#16 : Word).toNat / 4096 = 0
      ∧ (0x0FFF#16 : Word).toNat ≠ 0x00E0 ∧ (0x0FFF#16 : Word).toNat ≠ 0x00EE := by decide

theorem witness_IllegalWordTakesTheDecodeFault_family5 :
    HoldsWord (at200 0x5FFF#16) 0x5FFF#16 ∧ (0x5FFF#16 : Word).toNat / 4096 = 5
      ∧ (0x5FFF#16 : Word).toNat % 16 ≠ 0 := by decide

theorem witness_IllegalWordTakesTheDecodeFault_familyE :
    HoldsWord (at200 0xE0A2#16) 0xE0A2#16 ∧ (0xE0A2#16 : Word).toNat / 4096 = 0xE
      ∧ (0xE0A2#16 : Word).toNat % 256 ∉ [0x9E, 0xA1] := by decide

theorem witness_IllegalWordTakesTheDecodeFault_familyF :
    HoldsWord (at200 0xFFFF#16) 0xFFFF#16 ∧ (0xFFFF#16 : Word).toNat / 4096 = 0xF
      ∧ (0xFFFF#16 : Word).toNat % 256 ∉ [0x07, 0x15, 0x18, 0x1E, 0x29, 0x33, 0x55, 0x65] := by decide

theorem witness_StackPointerOutOfRangeIsRefused :
    16 < ({ State.reset with sp := 17 } : State).sp := by decide

/-- EveryStepKeepsTheStateInvariant, FaultsArePrecise: the step of the construction state (R254). -/
theorem witness_step_of_reset :
    State.reset.Inv ∧ step State.reset = .next (faultReset .decodeFault (beginStep State.reset))
      ∧ State.reset.faultCount < (faultReset .decodeFault (beginStep State.reset)).faultCount :=
  ⟨by decide, rfl, by decide⟩

theorem witness_NoRunEverStops : ({ State.reset with sp := 16, mem := [(0xFFF, 1#8)] } : State).Inv := by decide

theorem witness_IllegalWordAtZeroFaultsForever :
    State.reset.sp ≤ 16 ∧ State.reset.pc = 0#16
      ∧ decode [State.reset.mem.read 0, State.reset.mem.read 1] = .illegal .family0 := by decide

theorem witness_PlacedWordIsRunByTheNextStep :
    State.reset.Inv ∧ decodeTableWord 16 0x6005 = some (.ldImm 0 5#8) := by decide

/-- StoredBytesAreSeenByTheNextFetch, at the top of memory. -/
theorem witness_StoredBytesAreSeenByTheNextFetch :
    let s := { State.reset with i := 0xFFE#16 }
    let s' := { State.reset with i := 0xFFD#16 }
    s.mem.wf = true ∧ s.i.toNat + (1 : Reg).val ≤ 0xFFF ∧ (1 : Reg).val = (0 : Reg).val + 1
      ∧ s'.mem.wf = true ∧ s'.i.toNat + 2 ≤ 0xFFF := by decide

/-- The rules of the whole machine: an instruction that meets the premises of each. -/
theorem witness_rules_over_all_instructions :
    (∃ t, exec .cls State.reset = .next t ∧ t.faultCount = State.reset.faultCount)
      ∧ (∀ nnn, Instr.cls ≠ .call nnn) ∧ Instr.cls ≠ .ret ∧ writesMemory .cls = false :=
  ⟨⟨_, rfl, by decide⟩, by simp, by decide, rfl⟩

/-- OnlyTheirWritersChangeIndexAndTimers: each of the three changes happens. -/
theorem witness_OnlyTheirWritersChangeIndexAndTimers :
    (∃ t, exec (.ldI 1#12) State.reset = .next t ∧ t.i ≠ State.reset.i)
      ∧ (∃ t, exec (.ldDTVx 0) (State.reset.setV 0 1#8) = .next t ∧ t.dt ≠ (State.reset.setV 0 1#8).dt)
      ∧ (∃ t, exec (.ldSTVx 0) (State.reset.setV 0 1#8) = .next t ∧ t.st ≠ (State.reset.setV 0 1#8).st) :=
  ⟨⟨_, rfl, by decide⟩, ⟨_, rfl, by decide⟩, ⟨_, rfl, by decide⟩⟩

/-- FaultsExactlyUnderTheirConditions: every row of R221 at its boundary, and the state just inside. -/
theorem witness_FaultsExactlyUnderTheirConditions :
    stepFault { State.reset with pc := 0xFFF#16 } = some .addressRangeFault
    ∧ stepFault State.reset = some .decodeFault
    ∧ stepFault (at200 0x00EE#16) = some .stackUnderflow
    ∧ stepFault { at200 0x00EE#16 with sp := 1 } = none
    ∧ stepFault { at200 0x2200#16 with sp := 16 } = some .stackOverflow
    ∧ stepFault { at200 0x2200#16 with sp := 15 } = none
    ∧ stepFault { at200 0xF155#16 with i := 0xFFF#16 } = some .addressRangeFault
    ∧ stepFault { at200 0xF155#16 with i := 0xFFE#16 } = none
    ∧ stepFault { at200 0xF165#16 with i := 0xFFF#16 } = some .addressRangeFault
    ∧ stepFault { at200 0xF033#16 with i := 0xFFE#16 } = some .addressRangeFault
    ∧ stepFault { at200 0xF033#16 with i := 0xFFD#16 } = none
    ∧ stepFault { at200 0xD012#16 with i := 0xFFF#16 } = some .addressRangeFault
    ∧ stepFault { at200 0xD010#16 with i := 0xFFFF#16 } = none := by decide

theorem witness_ReturnPopsAndLandsPastTheCall :
    ({ State.reset with sp := 1 } : State).sp = (0 : Fin 16).val + 1
      ∧ ({ State.reset with sp := 16 } : State).sp = (15 : Fin 16).val + 1 ∧ State.reset.sp = 0 := by decide

theorem witness_CallPushesItsOwnAddress :
    ({ State.reset with sp := 15 } : State).sp < 16 ∧ ({ State.reset with sp := 16 } : State).sp = 16 := by
  decide

theorem witness_CallThenReturnRoundTrip :
    let s := { at200 0x2210#16 with mem := (at200 0x2210#16).mem.writeBytes 0x210 [0x00#8, 0xEE#8] }
    s.sp < 16 ∧ s.pc.toNat ≤ 0xFFE ∧ (0x210#12 : Addr12).toNat ≤ 0xFFE
      ∧ decode [s.mem.read s.pc.toNat, s.mem.read (s.pc.toNat + 1)] = .instr (.call 0x210#12)
      ∧ decode [s.mem.read 0x210, s.mem.read 0x211] = .instr .ret := by decide

theorem witness_SelfCallFillsTheStackThenOverflows :
    let s := at200 0x2200#16
    s.sp = 0 ∧ s.pc.toNat = (0x200#12 : Addr12).toNat ∧ (0x200#12 : Addr12).toNat ≤ 0xFFE
      ∧ decode [s.mem.read s.pc.toNat, s.mem.read (s.pc.toNat + 1)] = .instr (.call 0x200#12) := by decide

theorem witness_SelfJumpIdles :
    let s := at200 0x1200#16
    s.sp ≤ 16 ∧ s.pc.toNat = (0x200#12 : Addr12).toNat ∧ (0x200#12 : Addr12).toNat ≤ 0xFFE
      ∧ decode [s.mem.read s.pc.toNat, s.mem.read (s.pc.toNat + 1)] = .instr (.jp 0x200#12) := by decide

/-- ToleratedLowNibbleWarnsAndSkips. -/
theorem witness_nonzero_low_nibble : (0x1#4 : Nibble) ≠ 0#4 ∧ (0xF#4 : Nibble) ≠ 0#4 := by decide

/-- The third clause of SkipsOnTwoRegisters. -/
theorem witness_SkipsOnTwoRegisters :
    (0x1#4 : Nibble) ≠ 0#4 ∧ (at200 0x5121#16).sp ≤ 16
      ∧ fetch (at200 0x5121#16) = some (bytesOfWord (formXYN 0x5#4 1 2 0x1#4)) := by decide

/-- AddRegistersSetsTheCarry, SubtractionsSetTheStrictFlag, ShiftsWorkInPlace. -/
theorem witness_destination_is_not_vf : (0xE : Reg) ≠ 0xF := by decide

/-- DrawSpriteDelegatesToTheDisplay: no row, the last cell, and one past it. -/
theorem witness_DrawSpriteDelegatesToTheDisplay :
    let s := { State.reset with i := 0xFFF#16 }
    (0x0#4 : Nibble).toNat = 0 ∧ s.i.toNat + (0x1#4 : Nibble).toNat - 1 ≤ 0xFFF
      ∧ 1 ≤ (0x2#4 : Nibble).toNat ∧ s.i.toNat + (0x2#4 : Nibble).toNat - 1 > 0xFFF := by decide

theorem witness_DecimalDigitsAreStored :
    let s := { State.reset with i := 0xFFD#16 }
    let s' := { State.reset with i := 0xFFE#16 }
    s.mem.wf = true ∧ s.i.toNat + 2 ≤ 0xFFF ∧ s'.mem.wf = true ∧ s'.i.toNat + 2 > 0xFFF := by decide

/-- BlockStoreWritesExactlyItsBytes, BlockLoadReadsExactlyItsBytes. -/
theorem witness_block_transfers :
    let s := { State.reset with i := 0xFFF#16 }
    s.mem.wf = true ∧ s.i.toNat + (0 : Reg).val ≤ 0xFFF ∧ s.i.toNat + (1 : Reg).val > 0xFFF := by decide

theorem witness_BlockStoreThenLoadRestoresTheRegisters :
    let s := { State.reset with i := 0xFF0#16 }
    s.mem.wf = true ∧ s.i.toNat + (15 : Reg).val ≤ 0xFFF ∧ ∃ t, exec (.ldMemStore 15) s = .next t :=
  ⟨by decide, by decide, _, rfl⟩

theorem witness_HostMemoryAccessorsCheckTheirAddress :
    State.reset.mem.wf = true ∧ 0xFFF ≤ 0xFFF ∧ 0xFFF < 0x1000 := by decide

theorem witness_ImageIsLoadedWholeOrRejected :
    (List.replicate 3584 0x60#8).length ≤ 3584 ∧ 3584 < (List.replicate 3585 0x60#8).length := by
  rw [List.length_replicate, List.length_replicate]
  omega

theorem witness_BootedImageRunsItsFirstWord :
    State.reset.Inv ∧ ([0x60#8, 0x05#8] : List Byte).length ≤ 3584
      ∧ (∀ sprites, some conventionalFont = some sprites → sprites.length = 80)
      ∧ decode [0x60#8, 0x05#8] = .instr (.ldImm 0 5#8) :=
  ⟨by decide, by decide, fun _ h => by cases h; decide, by decide⟩

end Sys2Proof.Tests
end

section
/-! The DecodeFault of the illegal words of families 0, 5, E and F (30_encoding.md R76, R77, R80). -/

namespace Sys2Proof

/-! ### Fields compared as numbers -/

theorem fieldFamily_eq_iff (w : Word) (f : Nibble) : fieldFamily w = f ↔ w.toNat / 4096 = f.toNat := by
  rw [← BitVec.toNat_inj, toNat_fieldFamily]

theorem fieldN_eq_iff (w : Word) (n : Nibble) : fieldN w = n ↔ w.toNat % 16 = n.toNat := by
  rw [← BitVec.toNat_inj, toNat_fieldN]

theorem fieldNN_eq_iff (w : Word) (nn : Byte) : fieldNN w = nn ↔ w.toNat % 256 = nn.toNat := by
  rw [← BitVec.toNat_inj, toNat_fieldNN]

/-- The word at an address, high byte first (R51), from its value. -/
theorem wordOfBytes_eq_of_toNat {hi lo : Byte} {w : Word} (h : w.toNat = hi.toNat * 256 + lo.toNat) :
    wordOfBytes hi lo = w := by
  apply BitVec.eq_of_toNat_eq
  rw [wordOfBytes, BitVec.toNat_append, ← Nat.shiftLeft_add_eq_or_of_lt lo.isLt, Nat.shiftLeft_eq, h]

/-! ### The illegal leaves of the decode tree (R73) -/

theorem decodeWord_eq_illegal_family0 {w : Word} (hf : w.toNat / 4096 = 0x0)
    (hcls : w.toNat ≠ 0x00E0) (hret : w.toNat ≠ 0x00EE) : decodeWord w = .illegal .family0 := by
  have hcls' : w ≠ 0x00E0#16 := fun h => hcls (congrArg BitVec.toNat h)
  have hret' : w ≠ 0x00EE#16 := fun h => hret (congrArg BitVec.toNat h)
  rw [decodeWord_of_family0 w ((fieldFamily_eq_iff w _).mpr hf), decodeFamily0, if_neg hcls', if_neg hret']

theorem decodeWord_eq_illegal_family5 {w : Word} (hf : w.toNat / 4096 = 0x5) (hn : w.toNat % 16 ≠ 0) :
    decodeWord w = .illegal .family5LowNibble := by
  have hn' : fieldN w ≠ 0#4 := mt (fieldN_eq_iff w _).mp hn
  rw [decodeWord_of_family5 w ((fieldFamily_eq_iff w _).mpr hf), decodeFamily5, if_neg hn']

theorem decodeWord_eq_illegal_familyE {w : Word} (hf : w.toNat / 4096 = 0xE)
    (hnn : w.toNat % 256 ∉ [0x9E, 0xA1]) : decodeWord w = .illegal .familyELowByte := by
  simp only [List.mem_cons, List.not_mem_nil, or_false, not_or] at hnn
  rw [decodeWord_of_familyE w ((fieldFamily_eq_iff w _).mpr hf)]
  simp [decodeFamilyE, fieldNN_eq_iff, hnn]

theorem decodeWord_eq_illegal_familyF {w : Word} (hf : w.toNat / 4096 = 0xF)
    (hnn : w.toNat % 256 ∉ [0x07, 0x15, 0x18, 0x1E, 0x29, 0x33, 0x55, 0x65]) :
    decodeWord w = .illegal .familyFLowByte := by
  simp only [List.mem_cons, List.not_mem_nil, or_false, not_or] at hnn
  rw [decodeWord_of_familyF w ((fieldFamily_eq_iff w _).mpr hf)]
  simp [decodeFamilyF, fieldNN_eq_iff, hnn]

namespace Machine

/-- Where the two bytes at PC are no instruction, the step is the DecodeFault, taken after the timer
driver's turn (R229). -/
theorem step_eq_of_illegal {s : State} {why : IllegalWord} (hsp : s.sp ≤ 16) (hpc : s.pc.toNat ≤ 0xFFE)
    (hd : decode [s.mem.read s.pc.toNat, s.mem.read (s.pc.toNat + 1)] = .illegal why) :
    step s = .next (faultReset .decodeFault (beginStep s)) := by
  rw [step_eq, if_pos hsp, if_pos hpc, hd, raiseFault_eq]

/-- Settles O8: in each family the word ends at an illegal leaf of the decode tree, so the step is the
fault reset of the DecodeFault, and the driver's turn before it changes nothing the statement names. -/
theorem illegalWordTakesTheDecodeFault : Obligations.IllegalWordTakesTheDecodeFault := by
  intro s w hsp hpc hw hillegal
  have hword : ∃ why, decodeWord w = .illegal why := by
    rcases hillegal with ⟨hf, hcls, hret⟩ | ⟨hf, hn⟩ | ⟨hf, hnn⟩ | ⟨hf, hnn⟩
    · exact ⟨_, decodeWord_eq_illegal_family0 hf hcls hret⟩
    · exact ⟨_, decodeWord_eq_illegal_family5 hf hn⟩
    · exact ⟨_, decodeWord_eq_illegal_familyE hf hnn⟩
    · exact ⟨_, decodeWord_eq_illegal_familyF hf hnn⟩
  obtain ⟨why, hwhy⟩ := hword
  have hd : decode [s.mem.read s.pc.toNat, s.mem.read (s.pc.toNat + 1)] = .illegal why := by
    rw [decode_pair, wordOfBytes_eq_of_toNat hw, hwhy]
  obtain ⟨hpc0, hi0, hsp0, hlog, -, hv, hmem, hentries, -⟩ :=
    faultReset_isFaultReset .decodeFault (beginStep s)
  exact ⟨_, step_eq_of_illegal hsp hpc hd, hpc0, hi0, hsp0, hlog, hv, hmem, hentries⟩

end Machine

end Sys2Proof
end

section
/-! Jumps that write PC alone (40_system_and_flow.md R102). -/

namespace Sys2Proof.Machine

/-- An address field is widened to a word without a change of value. -/
@[simp] theorem toNat_zextAddr (nnn : Addr12) : (zextAddr nnn).toNat = nnn.toNat :=
  BitVec.toNat_setWidth_of_le (by decide)

/-- The frame of a PC write: no register, memory, stack, timer or port is touched. -/
theorem State.setPc_changesOnlyRegs (regs : List Reg) (s : State) (w : Word) :
    ChangesOnlyRegs regs s (s.setPc w) :=
  ⟨fun j _ => State.getV_setPc s w j, State.setPc_i s w, fun _ => rfl, ⟨State.setPc_sp s w, fun _ => rfl⟩,
    ⟨State.setPc_dt s w, State.setPc_st s w, State.setPc_steps s w⟩,
    ⟨State.setPc_portLog s w, State.setPc_draws s w⟩⟩

/-- The effect of JP is one PC write (R102). -/
theorem exec_jp (nnn : Addr12) (s : State) : exec (.jp nnn) s = .next (s.setPc (zextAddr nnn)) := rfl

/-- Settles O28: JP writes PC alone, and the widened address keeps its value. -/
theorem jumpSetsPcExactly : Obligations.JumpSetsPcExactly := by
  intro nnn s
  have hpc : (s.setPc (zextAddr nnn)).pc.toNat = nnn.toNat := by
    rw [State.setPc_pc, toNat_zextAddr]
  exact ⟨_, exec_jp nnn s, hpc, State.setPc_changesOnlyRegs [] s _⟩

end Sys2Proof.Machine
end

section
/-! The skips on an immediate and on two registers (41_skips.md R120 to R124). -/

namespace Sys2Proof

/-- The word 5XYN with N != 0 is illegal (R77). -/
theorem decodeWord_formXYN_family5 {n : Nibble} (x y : Reg) (hn : n ≠ 0#4) :
    decodeWord (formXYN 0x5#4 x y n) = .illegal .family5LowNibble := by
  rw [decodeWord_of_family5 _ (fieldFamily_formXYN ..), decodeFamily5, fieldN_formXYN, if_neg hn]

namespace Machine

/-! ### SkipIf (R120) -/

/-- From where an instruction runs, adding `d` to PC moves it by `d`: the sum does not wrap (R54). -/
theorem State.setPc_add_movesPcBy {d : Nat} (hd : 0xFFE + d < 2 ^ 16) (s : State) :
    MovesPcBy d s (s.setPc (s.pc + BitVec.ofNat 16 d)) := by
  intro hpc
  rw [State.setPc_pc, BitVec.toNat_add, BitVec.toNat_ofNat]
  omega

/-- SkipIf moves PC by 4 or by 2 and changes nothing else. -/
theorem skipIf_movesPcBy (c : Bool) (s : State) :
    ∃ t, skipIf c s = .next t ∧ ChangesOnlyRegs [] s t ∧ MovesPcBy (if c then 4 else 2) s t := by
  refine ⟨_, skipIf_eq c s, State.setPc_changesOnlyRegs [] s _, ?_⟩
  cases c
  · exact State.setPc_add_movesPcBy (by decide) s
  · exact State.setPc_add_movesPcBy (by decide) s

/-- SkipIf on equality of two bytes. -/
theorem skipIf_beq_movesPcBy (a b : Byte) (s : State) :
    ∃ t, skipIf (a == b) s = .next t ∧ ChangesOnlyRegs [] s t
      ∧ MovesPcBy (if a = b then 4 else 2) s t := by
  simpa only [beq_iff_eq] using skipIf_movesPcBy (a == b) s

/-- SkipIf on inequality of two bytes. -/
theorem skipIf_bne_movesPcBy (a b : Byte) (s : State) :
    ∃ t, skipIf (a != b) s = .next t ∧ ChangesOnlyRegs [] s t
      ∧ MovesPcBy (if a = b then 2 else 4) s t := by
  simpa only [bne_iff_ne, ne_eq, ite_not] using skipIf_movesPcBy (a != b) s

/-! ### The four instructions as skips (R121 to R124) -/

theorem exec_seImm (x : Reg) (nn : Byte) (s : State) :
    exec (.seImm x nn) s = skipIf (s.getV x == nn) s := rfl

theorem exec_sneImm (x : Reg) (nn : Byte) (s : State) :
    exec (.sneImm x nn) s = skipIf (s.getV x != nn) s := rfl

theorem exec_seReg (x y : Reg) (s : State) :
    exec (.seReg x y) s = skipIf (s.getV x == s.getV y) s := rfl

theorem exec_sneReg (x y : Reg) (s : State) :
    exec (.sneReg x y) s = skipIf (s.getV x != s.getV y) s := rfl

/-! ### Fetched bytes that are no instruction -/

/-- A fetch that answers was made from PC at most 0xFFE (R54). -/
theorem pc_le_of_fetch_eq_some {s : State} {bytes : List Byte} (h : fetch s = some bytes) :
    s.pc.toNat ≤ 0xFFE := by
  by_contra hpc
  rw [fetch, if_neg hpc] at h
  cases h

/-- Where the fetched bytes are no instruction, the step is the DecodeFault (R229). -/
theorem step_eq_of_fetch_illegal {s : State} {bytes : List Byte} {why : IllegalWord} (hsp : s.sp ≤ 16)
    (hfetch : fetch s = some bytes) (hd : decode bytes = .illegal why) :
    step s = .next (faultReset .decodeFault (beginStep s)) := by
  have hpc : s.pc.toNat ≤ 0xFFE := pc_le_of_fetch_eq_some hfetch
  obtain rfl := Option.some.inj ((fetch_eq s hpc).symm.trans hfetch)
  exact step_eq_of_illegal hsp hpc hd

/-! ### The statements -/

/-- Settles O33: both instructions are SkipIf, on equality with the immediate and on its negation. -/
theorem skipsOnAnImmediate : Obligations.SkipsOnAnImmediate := by
  intro x nn s
  rw [exec_seImm, exec_sneImm]
  exact ⟨skipIf_beq_movesPcBy (s.getV x) nn s, skipIf_bne_movesPcBy (s.getV x) nn s⟩

/-- Settles O34: both instructions are SkipIf on the two registers, and 5XYN with N != 0 is an illegal
word, whose step is the fault reset. -/
theorem skipsOnTwoRegisters : Obligations.SkipsOnTwoRegisters := by
  intro x y s
  rw [exec_seReg, exec_sneReg]
  refine ⟨skipIf_beq_movesPcBy (s.getV x) (s.getV y) s, skipIf_bne_movesPcBy (s.getV x) (s.getV y) s, ?_⟩
  intro n hn hsp hfetch
  have hd : decode (bytesOfWord (formXYN 0x5#4 x y n)) = .illegal .family5LowNibble := by
    rw [decode_bytesOfWord, decodeWord_formXYN_family5 x y hn]
  obtain ⟨hpc0, hi0, hsp0, hlog, -⟩ := faultReset_isFaultReset .decodeFault (beginStep s)
  exact ⟨_, step_eq_of_fetch_illegal hsp hfetch hd, hpc0, hi0, hsp0, hlog⟩

end Machine

end Sys2Proof
end

section
/-! The ALU instructions that write one register and no flag (42_alu.md R140 to R143). -/

namespace Sys2Proof.Machine

/-! ### The frame of a run of writes, one write at a time -/

theorem ChangesOnlyRegs.refl (regs : List Reg) (s : State) : ChangesOnlyRegs regs s s :=
  State.setPc_changesOnlyRegs regs s s.pc

/-- One more write to a listed register stays within the frame. -/
theorem ChangesOnlyRegs.setV {regs : List Reg} {s t : State} {x : Reg} (h : ChangesOnlyRegs regs s t)
    (hx : x ∈ regs) (b : Byte) : ChangesOnlyRegs regs s (t.setV x b) := by
  obtain ⟨hregs, hrest⟩ := h
  have hregs' : KeepsV regs s (t.setV x b) := fun j hj =>
    (State.getV_setV_ne t x j b (ne_of_mem_of_not_mem hx hj).symm).trans (hregs j hj)
  exact ⟨hregs', hrest⟩

/-- PC is outside the frame. -/
theorem ChangesOnlyRegs.advance {regs : List Reg} {s t : State} (h : ChangesOnlyRegs regs s t) :
    ChangesOnlyRegs regs s t.advance := h

/-! ### The shared end of these instructions (R140) -/

/-- An instruction that writes V[x] and no flag: V[x] holds the result, PC moves by 2, the rest stays. -/
theorem writeResult_changesOnlyDest (x : Reg) (r : Byte) (s : State) :
    ∃ t, writeResult x r s = .next t ∧ t.getV x = r ∧ MovesPcBy 2 s t ∧ ChangesOnlyRegs [x] s t := by
  have hdest : (s.setV x r).advance.getV x = r := by rw [State.getV_advance, State.getV_setV_self]
  have hpc : MovesPcBy 2 s (s.setV x r).advance :=
    State.setPc_add_movesPcBy (by decide) (s.setV x r)
  have hframe : ChangesOnlyRegs [x] s (s.setV x r).advance :=
    ((ChangesOnlyRegs.refl [x] s).setV (List.mem_singleton_self x) r).advance
  exact ⟨_, rfl, hdest, hpc, hframe⟩

/-! ### The three instructions (R141 to R143) -/

theorem exec_ldImm (x : Reg) (nn : Byte) (s : State) : exec (.ldImm x nn) s = writeResult x nn s := rfl

theorem exec_addImm (x : Reg) (nn : Byte) (s : State) :
    exec (.addImm x nn) s = writeResult x (s.getV x + nn) s := rfl

theorem exec_ldReg (x y : Reg) (s : State) : exec (.ldReg x y) s = writeResult x (s.getV y) s := rfl

/-! ### The statements -/

/-- Settles O36: both instructions write V[x] alone, the immediate itself or the sum, which wraps
modulo 256 (R152). -/
theorem loadAndAddAnImmediate : Obligations.LoadAndAddAnImmediate := by
  intro x nn s
  rw [exec_ldImm, exec_addImm]
  refine ⟨writeResult_changesOnlyDest x nn s, ?_⟩
  obtain ⟨t, ht, hdest, hpc, hframe⟩ := writeResult_changesOnlyDest x (s.getV x + nn) s
  have hsum : (t.getV x).toNat = ((s.getV x).toNat + nn.toNat) % 256 := by
    rw [hdest, BitVec.toNat_add]
  exact ⟨t, ht, hsum, hpc, hframe⟩

/-- Settles O37: the instruction writes V[x] alone, with the value V[y] has before the write. -/
theorem copyRegister : Obligations.CopyRegister := by
  intro x y s
  rw [exec_ldReg]
  exact writeResult_changesOnlyDest x (s.getV y) s

end Sys2Proof.Machine
end

section
/-! The instructions of families 0xA and 0xB: LD I and JP V0 (43_index_jump_random.md R170, R171). -/

namespace Sys2Proof.Machine

/-! ### Setting I and moving on -/

/-- An instruction that writes I alone moves PC by 2 and keeps every other part of the state. -/
theorem setI_advance_changesOnlyI (w : Word) (s : State) :
    MovesPcBy 2 s (s.setI w).advance ∧ KeepsV [] s (s.setI w).advance
      ∧ KeepsMem s (s.setI w).advance ∧ KeepsStack s (s.setI w).advance
      ∧ KeepsTimers s (s.setI w).advance ∧ KeepsPorts s (s.setI w).advance := by
  have hpc : MovesPcBy 2 s (s.setI w).advance := State.setPc_add_movesPcBy (by decide) (s.setI w)
  obtain ⟨hv, -, hrest⟩ := ChangesOnlyRegs.refl [] s
  exact ⟨hpc, hv, hrest⟩

/-! ### The target of the indexed jump -/

@[simp] theorem toNat_zextByte (b : Byte) : (zextByte b).toNat = b.toNat :=
  BitVec.toNat_setWidth_of_le (by decide)

/-- The target is at most 0xFF + 0xFFF = 0x10FE, so the 16-bit sum does not wrap (R171). -/
theorem toNat_zextByte_add_zextAddr (b : Byte) (nnn : Addr12) :
    (zextByte b + zextAddr nnn).toNat = b.toNat + nnn.toNat := by
  have hb : b.toNat < 2 ^ 8 := b.isLt
  have hn : nnn.toNat < 2 ^ 12 := nnn.isLt
  rw [BitVec.toNat_add, toNat_zextByte, toNat_zextAddr]
  exact Nat.mod_eq_of_lt (by omega)

/-! ### The two instructions -/

theorem exec_ldI (nnn : Addr12) (s : State) :
    exec (.ldI nnn) s = .next (s.setI (zextAddr nnn)).advance := rfl

theorem exec_jpV0 (nnn : Addr12) (s : State) :
    exec (.jpV0 nnn) s = .next (s.setPc (zextByte (s.getV 0) + zextAddr nnn)) := rfl

/-! ### The statement -/

/-- Settles O43: LD I writes I alone, with the zero-extended operand; JP V0 writes PC alone, with a
sum too small to wrap. -/
theorem loadIndexAndIndexedJump : Obligations.LoadIndexAndIndexedJump := by
  intro nnn s
  constructor
  · have hi : (s.setI (zextAddr nnn)).advance.i.toNat = nnn.toNat := by
      rw [State.advance_i, State.setI_i, toNat_zextAddr]
    exact ⟨_, exec_ldI nnn s, hi, setI_advance_changesOnlyI (zextAddr nnn) s⟩
  · have hpc : (s.setPc (zextByte (s.getV 0) + zextAddr nnn)).pc.toNat
        = (s.getV 0).toNat + nnn.toNat := by
      rw [State.setPc_pc, toNat_zextByte_add_zextAddr]
    exact ⟨_, exec_jpV0 nnn s, hpc, State.setPc_changesOnlyRegs [] s _⟩

end Sys2Proof.Machine
end

section
/-! The timer instructions of family 0xF (45_fx_family.md R190 to R192). -/

namespace Sys2Proof.Machine

/-! ### The frame of a timer write -/

/-- An instruction that writes timers alone moves PC by 2 and keeps every other part of the state. A
timer that is written with its own value stays, so this covers a write of either one. -/
theorem writeTimers_advance_changesOnlyTimers (dt st : Byte) (s : State) :
    MovesPcBy 2 s (State.advance { s with dt := dt, st := st })
      ∧ KeepsV [] s (State.advance { s with dt := dt, st := st })
      ∧ KeepsI s (State.advance { s with dt := dt, st := st })
      ∧ KeepsMem s (State.advance { s with dt := dt, st := st })
      ∧ KeepsStack s (State.advance { s with dt := dt, st := st })
      ∧ KeepsPorts s (State.advance { s with dt := dt, st := st }) := by
  have hpc : MovesPcBy 2 s (State.advance { s with dt := dt, st := st }) :=
    State.setPc_add_movesPcBy (by decide) { s with dt := dt, st := st }
  obtain ⟨hv, hi, hmem, hstack, -, hports⟩ := ChangesOnlyRegs.refl [] s
  exact ⟨hpc, hv, hi, hmem, hstack, hports⟩

/-! ### The three instructions (R190 to R192) -/

theorem exec_ldVxDT (x : Reg) (s : State) : exec (.ldVxDT x) s = writeResult x s.dt s := rfl

theorem exec_ldDTVx (x : Reg) (s : State) :
    exec (.ldDTVx x) s = .next (State.advance { s with dt := s.getV x }) := rfl

theorem exec_ldSTVx (x : Reg) (s : State) :
    exec (.ldSTVx x) s = .next (State.advance { s with st := s.getV x }) := rfl

/-! ### The statement -/

/-- Settles O47: FX07 writes V[x] alone, with DT; FX15 and FX18 write one timer alone, with V[x]. -/
theorem timersAreReadAndWritten : Obligations.TimersAreReadAndWritten := by
  intro x s
  refine ⟨?_, ?_, ?_⟩
  · rw [exec_ldVxDT]
    exact writeResult_changesOnlyDest x s.dt s
  · exact ⟨_, exec_ldDTVx x s, State.advance_dt _, State.advance_st _, State.advance_steps _,
      writeTimers_advance_changesOnlyTimers (s.getV x) s.st s⟩
  · exact ⟨_, exec_ldSTVx x s, State.advance_st _, State.advance_dt _, State.advance_steps _,
      writeTimers_advance_changesOnlyTimers s.dt (s.getV x) s⟩

end Sys2Proof.Machine
end

section
/-! The fault reset (60_exceptions.md R225). -/

namespace Sys2Proof.Machine

/-- Settles O10: raising a fault ends the step in `faultReset k s`, of which `IsFaultReset` holds;
the statement is that frame without the record of draws and steps. -/
theorem faultResetWipesOnlyPcIndexAndSp : Obligations.FaultResetWipesOnlyPcIndexAndSp := by
  intro k s
  obtain ⟨hpc, hi, hsp, hlog, -, hv, hmem, hentries, hdt, hst, -⟩ := faultReset_isFaultReset k s
  exact ⟨_, raiseFault_eq k s, hpc, hi, hsp, hlog, hmem, hv, hentries, hdt, hst⟩

end Sys2Proof.Machine
end

section
/-! The state after construction (70_reset_and_hazards.md R250). -/

namespace Sys2Proof.Machine

/-! ### The three banks of cells -/

/-- No cell is listed after construction, so every address reads as an unlisted one does. -/
theorem State.read_reset_mem (a : Nat) : State.reset.mem.read a = Memory.unlisted := rfl

theorem State.getV_reset (r : Reg) : State.reset.getV r = 0#8 := Vector.get_replicate 16 0#8 r

theorem State.get_reset_stack (j : Fin 16) : State.reset.stack.get j = 0#16 :=
  Vector.get_replicate 16 0#16 j

/-! ### The statement -/

/-- Settles O14: memory, V and the stack cell by cell; I, PC, SP, DT and ST are fields that
construction sets to zero. -/
theorem constructionLeavesEverythingZero : Obligations.ConstructionLeavesEverythingZero := by
  have hmem : ∀ a : Nat, State.reset.mem.read a = 0#8 := State.read_reset_mem
  exact ⟨hmem, State.getV_reset, rfl, rfl, State.get_reset_stack, rfl, rfl, rfl⟩

end Sys2Proof.Machine
end

section
/-! Decode and encode agree in both directions, and the illegal words are those the spec lists
(30_encoding.md R73 to R80). -/

namespace Sys2Proof

/-! ### Decode of encode, family by family -/

/-- Every well-formed instruction is what its word decodes to: the family nibble picks the branch of R73,
and in the families with a second test the low nibble or the low byte picks the leaf. -/
theorem decodeWord_encodeWord {i : Instr} (h : i.wellFormed = true) :
    decodeWord (encodeWord i) = .instr i := by
  cases i with
  | cls | ret => decide
  | jp | call | seImm | sneImm | ldImm | addImm | ldI | jpV0 | rnd | drw => simp [encodeWord, decodeWord]
  | seReg => simp [encodeWord, decodeWord_of_family5, decodeFamily5]
  | ldReg | orReg | andReg | xorReg | addReg | sub | shr | subn | shl =>
    simp [encodeWord, decodeWord_of_family8, decodeFamily8]
  | sneReg => simp [encodeWord, decodeWord_of_family9, decodeFamily9]
  | sneRegLowN x y n =>
    have hn : n ≠ 0#4 := bne_iff_ne.mp h
    simp [encodeWord, decodeWord_of_family9, decodeFamily9, hn]
  | skp | sknp => simp [encodeWord, decodeWord_of_familyE, decodeFamilyE]
  | ldVxDT | ldDTVx | ldSTVx | addI | ldF | ldB | ldMemStore | ldMemLoad =>
    simp [encodeWord, decodeWord_of_familyF, decodeFamilyF]

/-! ### Encode of decode: a word is put together again from its fields -/

theorem formNNN_of_family {w : Word} {f : Nibble} (hf : fieldFamily w = f) :
    formNNN f (fieldNNN w) = w := by
  rw [← hf, formNNN_fields]

theorem formXNN_of_family {w : Word} {f : Nibble} (hf : fieldFamily w = f) :
    formXNN f (fieldX w) (fieldNN w) = w := by
  rw [← hf, formXNN_fields]

theorem formXNN_of_fieldNN {w : Word} {f : Nibble} {nn : Byte} (hf : fieldFamily w = f)
    (hnn : fieldNN w = nn) : formXNN f (fieldX w) nn = w := by
  rw [← hnn, formXNN_of_family hf]

theorem formXYN_of_family {w : Word} {f : Nibble} (hf : fieldFamily w = f) :
    formXYN f (fieldX w) (fieldY w) (fieldN w) = w := by
  rw [← hf, formXYN_fields]

theorem formXYN_of_fieldN {w : Word} {f n : Nibble} (hf : fieldFamily w = f) (hn : fieldN w = n) :
    formXYN f (fieldX w) (fieldY w) n = w := by
  rw [← hn, formXYN_of_family hf]

/-- What decoding may answer for `w`: an instruction only if it is well-formed and `w` is its word. -/
def EncodesBack (w : Word) (d : Decoded) : Prop :=
  match d with
  | .instr i => i.wellFormed = true ∧ encodeWord i = w
  | .illegal _ => True

/-- One test of the decode tree: the leaf it guards is checked under the test, the rest without it. -/
theorem encodesBack_ite {w : Word} {c : Prop} [Decidable c] {d e : Decoded} (hd : c → EncodesBack w d)
    (he : EncodesBack w e) : EncodesBack w (if c then d else e) := by
  split
  · next h => exact hd h
  · exact he

theorem encodesBack_decodeFamily0 (w : Word) : EncodesBack w (decodeFamily0 w) := by
  unfold decodeFamily0
  iterate 2 refine encodesBack_ite (fun h => ⟨rfl, h.symm⟩) ?_
  trivial

theorem encodesBack_decodeFamily5 {w : Word} (hf : fieldFamily w = 0x5#4) :
    EncodesBack w (decodeFamily5 w) :=
  encodesBack_ite (fun h => ⟨rfl, formXYN_of_fieldN hf h⟩) trivial

theorem encodesBack_decodeFamily8 {w : Word} (hf : fieldFamily w = 0x8#4) :
    EncodesBack w (decodeFamily8 w) := by
  unfold decodeFamily8
  iterate 9 refine encodesBack_ite (fun h => ⟨rfl, formXYN_of_fieldN hf h⟩) ?_
  trivial

theorem encodesBack_decodeFamily9 {w : Word} (hf : fieldFamily w = 0x9#4) :
    EncodesBack w (decodeFamily9 w) := by
  unfold decodeFamily9
  split
  · next h => exact ⟨rfl, formXYN_of_fieldN hf h⟩
  · next h => exact ⟨bne_iff_ne.mpr h, formXYN_of_family hf⟩

theorem encodesBack_decodeFamilyE {w : Word} (hf : fieldFamily w = 0xE#4) :
    EncodesBack w (decodeFamilyE w) := by
  unfold decodeFamilyE
  iterate 2 refine encodesBack_ite (fun h => ⟨rfl, formXNN_of_fieldNN hf h⟩) ?_
  trivial

theorem encodesBack_decodeFamilyF {w : Word} (hf : fieldFamily w = 0xF#4) :
    EncodesBack w (decodeFamilyF w) := by
  unfold decodeFamilyF
  iterate 8 refine encodesBack_ite (fun h => ⟨rfl, formXNN_of_fieldNN hf h⟩) ?_
  trivial

theorem encodesBack_decodeWord (w : Word) : EncodesBack w (decodeWord w) := by
  rcases nibble_cases (fieldFamily w) with hf | hf | hf | hf | hf | hf | hf | hf | hf | hf | hf | hf | hf
    | hf | hf | hf
  · rw [decodeWord_of_family0 w hf]; exact encodesBack_decodeFamily0 w
  · rw [decodeWord_of_family1 w hf]; exact ⟨rfl, formNNN_of_family hf⟩
  · rw [decodeWord_of_family2 w hf]; exact ⟨rfl, formNNN_of_family hf⟩
  · rw [decodeWord_of_family3 w hf]; exact ⟨rfl, formXNN_of_family hf⟩
  · rw [decodeWord_of_family4 w hf]; exact ⟨rfl, formXNN_of_family hf⟩
  · rw [decodeWord_of_family5 w hf]; exact encodesBack_decodeFamily5 hf
  · rw [decodeWord_of_family6 w hf]; exact ⟨rfl, formXNN_of_family hf⟩
  · rw [decodeWord_of_family7 w hf]; exact ⟨rfl, formXNN_of_family hf⟩
  · rw [decodeWord_of_family8 w hf]; exact encodesBack_decodeFamily8 hf
  · rw [decodeWord_of_family9 w hf]; exact encodesBack_decodeFamily9 hf
  · rw [decodeWord_of_familyA w hf]; exact ⟨rfl, formNNN_of_family hf⟩
  · rw [decodeWord_of_familyB w hf]; exact ⟨rfl, formNNN_of_family hf⟩
  · rw [decodeWord_of_familyC w hf]; exact ⟨rfl, formXNN_of_family hf⟩
  · rw [decodeWord_of_familyD w hf]; exact ⟨rfl, formXYN_of_family hf⟩
  · rw [decodeWord_of_familyE w hf]; exact encodesBack_decodeFamilyE hf
  · rw [decodeWord_of_familyF w hf]; exact encodesBack_decodeFamilyF hf

/-! ### The illegal leaves, from the decoder's side -/

/-- One test of the decode tree that guards an instruction: only where it fails can the word be illegal. -/
theorem exists_illegal_ite_instr {c : Prop} [Decidable c] (i : Instr) (d : Decoded) :
    (∃ why, (if c then .instr i else d) = .illegal why) ↔ ¬ c ∧ ∃ why, d = .illegal why := by
  split <;> simp [*]

theorem decodeFamily0_illegal_iff (w : Word) :
    (∃ why, decodeFamily0 w = .illegal why) ↔ w.toNat ≠ 0x00E0 ∧ w.toNat ≠ 0x00EE := by
  simp [decodeFamily0, exists_illegal_ite_instr, ← BitVec.toNat_inj]

theorem decodeFamily5_illegal_iff (w : Word) :
    (∃ why, decodeFamily5 w = .illegal why) ↔ w.toNat % 16 ≠ 0 := by
  simp [decodeFamily5, exists_illegal_ite_instr, fieldN_eq_iff]

theorem decodeFamily8_illegal_iff (w : Word) :
    (∃ why, decodeFamily8 w = .illegal why)
      ↔ w.toNat % 16 ∈ [0x8, 0x9, 0xA, 0xB, 0xC, 0xD, 0xF] := by
  have hn : w.toNat % 16 < 16 := Nat.mod_lt _ (by decide)
  simp only [decodeFamily8, exists_illegal_ite_instr, fieldN_eq_iff, BitVec.toNat_ofNat, Nat.reducePow,
    Nat.zero_mod, Nat.one_mod, Nat.reduceMod, Decoded.illegal.injEq, exists_eq', and_true, List.mem_cons,
    List.not_mem_nil, or_false]
  omega

/-- The tolerated 9XYN leaves no illegal word in its family (R78). -/
theorem decodeFamily9_not_illegal (w : Word) : ¬ ∃ why, decodeFamily9 w = .illegal why := by
  simp [decodeFamily9, exists_illegal_ite_instr]

theorem decodeFamilyE_illegal_iff (w : Word) :
    (∃ why, decodeFamilyE w = .illegal why) ↔ w.toNat % 256 ∉ [0x9E, 0xA1] := by
  simp [decodeFamilyE, exists_illegal_ite_instr, fieldNN_eq_iff]

theorem decodeFamilyF_illegal_iff (w : Word) :
    (∃ why, decodeFamilyF w = .illegal why)
      ↔ w.toNat % 256 ∉ [0x07, 0x15, 0x18, 0x1E, 0x29, 0x33, 0x55, 0x65] := by
  simp [decodeFamilyF, exists_illegal_ite_instr, fieldNN_eq_iff]

/-! ### The statements -/

/-- Settles O1: eighteen words without variables, decoded by computation. -/
theorem specWordsDecodeAsTheirRows : Obligations.SpecWordsDecodeAsTheirRows := by
  unfold Obligations.SpecWordsDecodeAsTheirRows
  decide

/-- Settles O2: the two bytes of a word are put together again, and a word of the encoder decodes to its
instruction family by family. -/
theorem decodeOfEncodeIsIdentity : Obligations.DecodeOfEncodeIsIdentity := by
  intro i h
  rw [encode, decode_bytesOfWord, decodeWord_encodeWord h]

/-- Settles O3: every leaf of the decode tree encodes back, by the family and the field it tested. -/
theorem legalWordIsTheWordOfItsInstruction : Obligations.LegalWordIsTheWordOfItsInstruction := by
  intro w i h
  have hw := encodesBack_decodeWord w
  rwa [h] at hw

/-- Settles O4: in each of the sixteen families the decoder rejects exactly what the family's own test
rejects; eleven families reject nothing. -/
theorem illegalWordsAreExactlyTheListed : Obligations.IllegalWordsAreExactlyTheListed := by
  intro w
  rcases nibble_cases (fieldFamily w) with hf | hf | hf | hf | hf | hf | hf | hf | hf | hf | hf | hf | hf
    | hf | hf | hf
  all_goals have hq := (fieldFamily_eq_iff w _).mp hf
  · rw [decodeWord_of_family0 w hf, decodeFamily0_illegal_iff]; simp [hq]
  · simp [decodeWord_of_family1 w hf, hq]
  · simp [decodeWord_of_family2 w hf, hq]
  · simp [decodeWord_of_family3 w hf, hq]
  · simp [decodeWord_of_family4 w hf, hq]
  · rw [decodeWord_of_family5 w hf, decodeFamily5_illegal_iff]; simp [hq]
  · simp [decodeWord_of_family6 w hf, hq]
  · simp [decodeWord_of_family7 w hf, hq]
  · rw [decodeWord_of_family8 w hf, decodeFamily8_illegal_iff]; simp [hq]
  · rw [decodeWord_of_family9 w hf]; simp [decodeFamily9_not_illegal w, hq]
  · simp [decodeWord_of_familyA w hf, hq]
  · simp [decodeWord_of_familyB w hf, hq]
  · simp [decodeWord_of_familyC w hf, hq]
  · simp [decodeWord_of_familyD w hf, hq]
  · rw [decodeWord_of_familyE w hf, decodeFamilyE_illegal_iff]; simp [hq]
  · rw [decodeWord_of_familyF w hf, decodeFamilyF_illegal_iff]; simp [hq]

end Sys2Proof
end

section
/-! What one step can do, and what every step keeps (00_scope.md R9; 10_state.md R30; 60_exceptions.md
R221 to R230). -/

namespace Sys2Proof.Machine

/-! ### Every instruction answers -/

/-- No instruction stops the machine from SP in 0..16 (R30). -/
theorem exec_answers_next (i : Instr) {s : State} (hsp : s.sp ≤ 16) : ∃ t, exec i s = .next t := by
  have hrange {n : Nat} {u : State} : ∃ t, withRangeAtI n s (.next u) = .next t := by
    rcases withRangeAtI_cases n s (.next u) with ⟨-, e⟩ | ⟨-, e⟩
    · exact ⟨_, e⟩
    · exact ⟨_, e⟩
  cases i with
  | ret =>
    rcases popThen_cases s fun w t => .next (t.setPc (w + 2#16)) with ⟨-, e⟩ | ⟨-, _, e⟩ | ⟨h, -⟩
    · exact ⟨_, e⟩
    · exact ⟨_, e⟩
    · omega
  | call nnn =>
    rcases pushThen_cases s.pc s fun t => .next (t.setPc (zextAddr nnn))
      with ⟨-, e⟩ | ⟨_, e⟩ | ⟨h, -⟩
    · exact ⟨_, e⟩
    · exact ⟨_, e⟩
    · omega
  | drw x y n =>
    show ∃ t, execDrw x y n s = .next t
    unfold execDrw
    split
    · exact ⟨_, rfl⟩
    · exact hrange
  | ldB | ldMemStore | ldMemLoad => exact hrange
  | _ => exact ⟨_, rfl⟩

/-! ### An instruction's own effect, field by field

In these case splits the pattern `⟨_, _, _, rfl⟩` takes apart any effect that is free values and then an
equation for the state after, whatever their number. -/

theorem OwnEffect.stack_eq {i : Instr} {s t : State} (h : OwnEffect i s t) (hi : ∀ nnn, i ≠ .call nnn) :
    t.stack = s.stack := by
  cases i with
  | call nnn => exact absurd rfl (hi nnn)
  | _ => obtain ⟨_, _, _, rfl⟩ := h; rfl

theorem OwnEffect.sp_eq {i : Instr} {s t : State} (h : OwnEffect i s t) (hi : ∀ nnn, i ≠ .call nnn)
    (hi' : i ≠ .ret) : t.sp = s.sp := by
  cases i with
  | call nnn => exact absurd rfl (hi nnn)
  | ret => exact absurd rfl hi'
  | _ => obtain ⟨_, _, _, rfl⟩ := h; rfl

theorem OwnEffect.mem_eq {i : Instr} {s t : State} (h : OwnEffect i s t) (hi : writesMemory i = false) :
    t.mem = s.mem := by
  cases i with
  | ldB | ldMemStore => cases hi
  | _ => obtain ⟨_, _, _, rfl⟩ := h; rfl

theorem OwnEffect.dt_eq {i : Instr} {s t : State} (h : OwnEffect i s t) (hi : ∀ x, i ≠ .ldDTVx x) :
    t.dt = s.dt := by
  cases i with
  | ldDTVx x => exact absurd rfl (hi x)
  | _ => obtain ⟨_, _, _, rfl⟩ := h; rfl

theorem OwnEffect.st_eq {i : Instr} {s t : State} (h : OwnEffect i s t) (hi : ∀ x, i ≠ .ldSTVx x) :
    t.st = s.st := by
  cases i with
  | ldSTVx x => exact absurd rfl (hi x)
  | _ => obtain ⟨_, _, _, rfl⟩ := h; rfl

/-- I is written by three instructions and no other (R26). -/
theorem OwnEffect.i_eq_or_writer {i : Instr} {s t : State} (h : OwnEffect i s t) :
    t.i = s.i ∨ (∃ nnn, i = .ldI nnn) ∨ (∃ x, i = .addI x) ∨ ∃ x, i = .ldF x := by
  cases i with
  | ldI nnn => exact .inr (.inl ⟨nnn, rfl⟩)
  | addI x => exact .inr (.inr (.inl ⟨x, rfl⟩))
  | ldF x => exact .inr (.inr (.inr ⟨x, rfl⟩))
  | _ => obtain ⟨_, _, _, rfl⟩ := h; exact .inl rfl

/-- A block load keeps the registers above its last (R197). -/
theorem getElem_loadRegs_of_length_le {v : Vector Byte 16} {bytes : List Byte} {k : Nat} (hk : k < 16)
    (h : bytes.length ≤ k) : (loadRegs v 0 bytes)[k] = v[k] := by
  rw [getElem_loadRegs v 0 k bytes hk, if_pos (Nat.zero_le k), List.getElem?_eq_none (by omega),
    Option.getD_none]

theorem OwnEffect.getV_eq {i : Instr} {s t : State} {j : Reg} (h : OwnEffect i s t)
    (hj : j ∉ writtenRegs i) : t.getV j = s.getV j := by
  cases i with
  | ldImm | addImm | ldReg | orReg | andReg | xorReg | ldVxDT =>
    obtain ⟨r, rfl⟩ := h
    exact State.getV_setV_ne s _ j r (List.ne_of_not_mem_cons hj)
  | addReg | sub | shr | subn | shl =>
    obtain ⟨r, f, rfl⟩ := h
    have hx := List.ne_of_not_mem_cons hj
    have hf : j ≠ flagReg := List.ne_of_not_mem_cons (List.not_mem_of_not_mem_cons hj)
    rw [State.getV_advance, State.getV_setV_ne _ _ _ _ hf, State.getV_setV_ne _ _ _ _ hx]
  | rnd =>
    obtain ⟨b, r, rfl⟩ := h
    exact State.getV_setV_ne _ _ j r (List.ne_of_not_mem_cons hj)
  | drw =>
    obtain ⟨rows, c, f, rfl⟩ := h
    exact State.getV_setV_ne _ _ j f (List.ne_of_not_mem_cons hj)
  | ldMemLoad x =>
    obtain ⟨-, rfl⟩ := h
    have hlt : x.val < j.val := by simpa [writtenRegs] using hj
    exact getElem_loadRegs_of_length_le j.isLt (by simpa using hlt)
  | _ => obtain ⟨_, _, _, rfl⟩ := h; rfl

/-- What an instruction records of its port calls: nothing, or one call that is no fault's trace. -/
theorem OwnEffect.portLog_cases {i : Instr} {s t : State} (h : OwnEffect i s t) :
    (t.portLog = s.portLog ∧ hookCallsOf i = 0) ∨
    ∃ e : PortEvent, t.portLog = e :: s.portLog ∧ e.isFault = false
      ∧ hookCallsOf i = if e.isHookCall then 1 else 0 := by
  cases i with
  | cls | sneRegLowN | rnd | drw | skp | sknp =>
    obtain ⟨_, _, _, rfl⟩ := h; exact .inr ⟨_, rfl, rfl, rfl⟩
  | _ => obtain ⟨_, _, _, rfl⟩ := h; exact .inl ⟨rfl, rfl⟩

theorem OwnEffect.faultCount_eq {i : Instr} {s t : State} (h : OwnEffect i s t) :
    t.faultCount = s.faultCount := by
  rcases h.portLog_cases with ⟨hlog, -⟩ | ⟨e, hlog, he, -⟩
  · rw [State.faultCount, hlog, State.faultCount]
  · rw [State.faultCount, hlog, List.countP_cons_of_neg (by simp [he]), State.faultCount]

theorem OwnEffect.hookCount_eq {i : Instr} {s t : State} (h : OwnEffect i s t) :
    t.hookCount = s.hookCount + hookCallsOf i := by
  rcases h.portLog_cases with ⟨hlog, hi⟩ | ⟨e, hlog, -, hi⟩
  · rw [State.hookCount, hlog, hi, Nat.add_zero, State.hookCount]
  · rw [State.hookCount, hlog, List.countP_cons, hi, State.hookCount]

/-! ### Memory's canonical form and SP's range -/

@[simp] theorem length_decimalDigits (b : Byte) : (decimalDigits b).length = 3 := rfl

/-- A run of bytes inside the checked range is stored in canonical form (R55). -/
theorem wf_writeBytes_of_inRange {a : Nat} {bytes : List Byte} {m : Memory} (hm : m.wf = true)
    (h : InRange a bytes.length) : (m.writeBytes a bytes).wf = true := by
  have hlast : a + bytes.length - 1 ≤ 0xFFF := h.2
  exact Memory.wf_writeBytes hm (by simp only [memSize]; omega)

theorem OwnEffect.mem_wf {i : Instr} {s t : State} (h : OwnEffect i s t) (hm : s.mem.wf = true) :
    t.mem.wf = true := by
  cases i with
  | ldB x =>
    obtain ⟨hr, rfl⟩ := h
    exact wf_writeBytes_of_inRange hm (by rwa [length_decimalDigits])
  | ldMemStore x =>
    obtain ⟨hr, rfl⟩ := h
    exact wf_writeBytes_of_inRange hm (by rwa [length_regsUpTo])
  | _ => rw [h.mem_eq rfl]; exact hm

theorem OwnEffect.sp_le {i : Instr} {s t : State} (h : OwnEffect i s t) (hsp : s.sp ≤ 16) :
    t.sp ≤ 16 := by
  cases i with
  | call =>
    obtain ⟨hlt, rfl⟩ := h
    exact hlt
  | ret =>
    obtain ⟨hlt, -, rfl⟩ := h
    exact hlt.le
  | _ => rw [h.sp_eq (by simp) (by simp)]; exact hsp

theorem OwnEffect.keeps_inv {i : Instr} {s t : State} (h : OwnEffect i s t) (hs : s.Inv) : t.Inv :=
  ⟨h.sp_le hs.1, h.mem_wf hs.2⟩

theorem faultReset_keeps_inv (k : FaultKind) {s : State} (hs : s.Inv) : (faultReset k s).Inv :=
  ⟨Nat.zero_le 16, hs.2⟩

/-! ### The step -/

theorem beginStep_keeps_inv {s : State} (hs : s.Inv) : (beginStep s).Inv := hs

/-- The driver's turn has no say in which fault an instruction takes. -/
theorem ownFault_beginStep (i : Instr) (s : State) : ownFault i (beginStep s) = ownFault i s := rfl

theorem step_eq_of_pc_gt {s : State} (hsp : s.sp ≤ 16) (hpc : 0xFFE < s.pc.toNat) :
    step s = .next (faultReset .addressRangeFault (beginStep s)) := by
  rw [step_eq, if_pos hsp, if_neg (by omega), raiseFault_eq]

theorem step_eq_exec {s : State} {i : Instr} (hsp : s.sp ≤ 16) (hpc : s.pc.toNat ≤ 0xFFE)
    (hd : decode [s.mem.read s.pc.toNat, s.mem.read (s.pc.toNat + 1)] = .instr i) :
    step s = exec i (beginStep s) := by
  rw [step_eq, if_pos hsp, if_pos hpc, hd]

theorem step_eq_refused {s : State} (hsp : 16 < s.sp) : step s = .refused .spOutOfRange := by
  rw [step_eq, if_neg (by omega)]

/-- Everything a step can do: refuse, take the fault of R221 that comes first, or run one instruction to
its end. -/
theorem step_next_cases {s t : State} (h : step s = .next t) :
    (∃ k, t = faultReset k (beginStep s) ∧ stepFault s = some k) ∨
    (stepFault s = none ∧ ∃ i, OwnEffect i (beginStep s) t) := by
  by_cases hsp : s.sp ≤ 16
  · by_cases hpc : s.pc.toNat ≤ 0xFFE
    · have hpc' : ¬ s.pc.toNat > 0xFFE := by omega
      cases hd : decode [s.mem.read s.pc.toNat, s.mem.read (s.pc.toNat + 1)] with
      | illegal why =>
        rw [step_eq_of_illegal hsp hpc hd] at h; cases h
        exact .inl ⟨_, rfl, by rw [stepFault, if_neg hpc', hd]⟩
      | instr i =>
        have hfault : stepFault s = ownFault i s := by rw [stepFault, if_neg hpc', hd]
        rw [step_eq_exec hsp hpc hd] at h
        rw [hfault, ← ownFault_beginStep i s]
        exact (exec_next_cases h).imp id fun ⟨hnone, he⟩ => ⟨hnone, i, he⟩
    · rw [step_eq_of_pc_gt hsp (by omega)] at h; cases h
      exact .inl ⟨_, rfl, if_pos (by omega)⟩
  · rw [step_eq_refused (by omega)] at h; cases h

/-- From SP in 0..16 every step answers a next state: a fault is a next state too (R225, R259). -/
theorem step_answers_next {s : State} (hsp : s.sp ≤ 16) : ∃ t, step s = .next t := by
  by_cases hpc : s.pc.toNat ≤ 0xFFE
  · cases hd : decode [s.mem.read s.pc.toNat, s.mem.read (s.pc.toNat + 1)] with
    | illegal why => exact ⟨_, step_eq_of_illegal hsp hpc hd⟩
    | instr i =>
      rw [step_eq_exec hsp hpc hd]
      exact exec_answers_next i hsp
  · exact ⟨_, step_eq_of_pc_gt hsp (by omega)⟩

theorem step_keeps_inv {s t : State} (hs : s.Inv) (h : step s = .next t) : t.Inv := by
  rcases step_next_cases h with ⟨k, rfl, -⟩ | ⟨-, i, he⟩
  · exact faultReset_keeps_inv k (beginStep_keeps_inv hs)
  · exact he.keeps_inv (beginStep_keeps_inv hs)

/-! ### The statements about the step -/

/-- Settles O11: a fault reset sets SP to 0 and keeps memory; an instruction's own effect keeps SP in
range by its own stack test and memory canonical by its own range test. -/
theorem everyStepKeepsTheStateInvariant : Obligations.EveryStepKeepsTheStateInvariant :=
  fun _ _ => step_keeps_inv

/-- Settles O12: the state of construction is closed data, so the test of the invariant runs. -/
theorem resetStateMeetsTheStateInvariant : Obligations.ResetStateMeetsTheStateInvariant := by
  unfold Obligations.ResetStateMeetsTheStateInvariant
  decide

/-- Settles O13, by induction on the number of steps: each step answers, and its answer meets the
invariant, from which the rest of the run goes on. -/
theorem noRunEverStops : Obligations.NoRunEverStops := by
  intro n
  induction n with
  | zero => exact fun s hs => ⟨s, rfl, hs⟩
  | succ n ih =>
    intro s hs
    obtain ⟨t, ht⟩ := step_answers_next hs.1
    rw [run_succ_of_next ht]
    exact ih t (step_keeps_inv hs ht)

/-- Settles O5: of the branches of `step_eq`, the one that decodes. -/
theorem stepRunsTheDecodedInstruction : Obligations.StepRunsTheDecodedInstruction :=
  fun _ _ => step_eq_exec

/-- Settles O6: the driver's ticks at once are that many single ticks. -/
theorem timerDriverTicksBeforeTheInstruction : Obligations.TimerDriverTicksBeforeTheInstruction := by
  intro s
  have hdt : (beginStep s).dt = timerTick^[Config.delayTicks s.steps] s.dt := timerTicks_eq_iterate _ _
  have hst : (beginStep s).st = timerTick^[Config.soundTicks s.steps] s.st := timerTicks_eq_iterate _ _
  exact ⟨⟨_, hdt⟩, ⟨_, hst⟩, toNat_timerTick, beginStep_pc s, beginStep_steps s,
    fun j _ => getV_beginStep s j, beginStep_i s, fun _ => rfl, ⟨beginStep_sp s, fun _ => rfl⟩,
    beginStep_portLog s, beginStep_draws s⟩

/-- Settles O7: the fetch test comes first of the tests behind the driver's turn (R229). -/
theorem fetchPastTheBoundTakesTheRangeFault : Obligations.FetchPastTheBoundTakesTheRangeFault :=
  fun _ hsp hpc => ⟨_, step_eq_of_pc_gt hsp hpc, faultReset_isFaultReset _ _⟩

/-- Settles O9: the test of SP comes before anything else of the step. -/
theorem stackPointerOutOfRangeIsRefused : Obligations.StackPointerOutOfRangeIsRefused :=
  fun _ => step_eq_refused

/-- Settles O23: the step answers, and what it answers is the fault reset of R221's first condition or
the effect of an instruction, which traces no fault. -/
theorem faultsExactlyUnderTheirConditions : Obligations.FaultsExactlyUnderTheirConditions := by
  intro s hsp
  obtain ⟨t, ht⟩ := step_answers_next hsp
  refine ⟨t, ht, ?_⟩
  rcases step_next_cases ht with ⟨k, rfl, hk⟩ | ⟨hnone, i, he⟩
  · rw [hk]
    refine ⟨fun k' hk' => ?_, nofun⟩
    cases hk'
    exact faultReset_isFaultReset k (beginStep s)
  · rw [hnone]
    exact ⟨nofun, fun _ => he.faultCount_eq⟩

/-- Settles O24: an instruction's own effect leaves the count of fault resets, so a step that raises it
was a fault reset after the driver's turn. -/
theorem faultsArePrecise : Obligations.FaultsArePrecise := by
  intro s t h hlt
  rcases step_next_cases h with ⟨k, rfl, -⟩ | ⟨-, i, he⟩
  · obtain ⟨hpc, hi, hsp, -, -, hv, hmem, hentries, hdt, hst, -⟩ :=
      faultReset_isFaultReset k (beginStep s)
    exact ⟨hpc, hi, hsp, hv, hmem, hentries, hdt, hst⟩
  · have heq : t.faultCount = s.faultCount := he.faultCount_eq
    omega

/-- Settles O15, by induction on the number of steps: each is the DecodeFault's reset, which leaves PC at
0 and the illegal word in memory. -/
theorem illegalWordAtZeroFaultsForever : Obligations.IllegalWordAtZeroFaultsForever := by
  intro n
  induction n with
  | zero =>
    intro s why _ hpc _
    exact ⟨s, rfl, hpc, rfl, fun _ _ => rfl, fun _ => rfl, fun h => absurd h (lt_irrefl 0)⟩
  | succ n ih =>
    intro s why hsp hpc hd
    have hzero : s.pc.toNat = 0 := congrArg BitVec.toNat hpc
    have hstep : step s = .next (faultReset .decodeFault (beginStep s)) :=
      step_eq_of_illegal hsp (by omega) (by rwa [hzero])
    obtain ⟨t, hrun, htpc, hcount, hv, hmem, hend⟩ :=
      ih (faultReset .decodeFault (beginStep s)) why (Nat.zero_le 16) rfl hd
    rw [faultCount_faultReset, faultCount_beginStep] at hcount
    have hregs : t.i = 0#16 ∧ t.sp = 0 := by
      cases n with
      | zero => cases hrun; exact ⟨rfl, rfl⟩
      | succ n => exact hend (Nat.succ_pos n)
    exact ⟨t, by rw [run_succ_of_next hstep, hrun], htpc, by omega, hv, hmem, fun _ => hregs⟩

/-! ### The statements about every instruction -/

/-- Settles O18: a fault reset keeps the entries, and of the own effects only CALL's writes one. -/
theorem onlyCallAndReturnReachTheStack : Obligations.OnlyCallAndReturnReachTheStack := by
  intro i s t h hcall
  rcases exec_next_cases h with ⟨k, rfl, -⟩ | ⟨-, he⟩
  · exact ⟨fun _ => rfl, fun _ => .inr ⟨k, faultReset_isFaultReset k s⟩⟩
  · exact ⟨fun j => by rw [he.stack_eq hcall], fun hret => .inl (he.sp_eq hcall hret)⟩

/-- Settles O19: a fault reset keeps memory, and so does every own effect but two. -/
theorem onlyTheTwoStoresWriteMemory : Obligations.OnlyTheTwoStoresWriteMemory := by
  intro i s t h hi
  rcases exec_next_cases h with ⟨k, rfl, -⟩ | ⟨-, he⟩
  · exact fun _ => rfl
  · exact fun a => by rw [he.mem_eq hi]

/-- Settles O20: a fault reset keeps V, and an own effect writes its listed registers. -/
theorem onlyTheListedRegistersAreWritten : Obligations.OnlyTheListedRegistersAreWritten := by
  intro i s t h
  rcases exec_next_cases h with ⟨k, rfl, -⟩ | ⟨-, he⟩
  · exact fun j _ => getV_faultReset s k j
  · exact fun _ => he.getV_eq

/-- Settles O21: a fault reset is named in the statement for I and keeps the timers; of the own effects, three write
I and one each timer. -/
theorem onlyTheirWritersChangeIndexAndTimers : Obligations.OnlyTheirWritersChangeIndexAndTimers := by
  intro i s t h
  rcases exec_next_cases h with ⟨k, rfl, -⟩ | ⟨-, he⟩
  · exact ⟨fun _ => .inr (.inr (.inr ⟨k, faultReset_isFaultReset k s⟩)), fun hne => absurd rfl hne,
      fun hne => absurd rfl hne⟩
  · refine ⟨fun hne => ?_, fun hne => ?_, fun hne => ?_⟩
    · rcases he.i_eq_or_writer with heq | hldI | haddI | hldF
      · exact absurd heq hne
      · exact .inl hldI
      · exact .inr (.inl haddI)
      · exact .inr (.inr (.inl hldF))
    · by_contra hi
      exact hne (he.dt_eq (not_exists.mp hi))
    · by_contra hi
      exact hne (he.st_eq (not_exists.mp hi))

/-- A fault reset raises the count of fault resets, so an instruction that leaves the count has had its
own effect. -/
theorem ownEffect_of_faultCount_eq {i : Instr} {s t : State} (h : exec i s = .next t)
    (hcount : t.faultCount = s.faultCount) : OwnEffect i s t := by
  rcases exec_next_cases h with ⟨k, rfl, -⟩ | ⟨-, he⟩
  · rw [faultCount_faultReset] at hcount; omega
  · exact he

theorem pc_of_skip (c : Bool) (w : Word) :
    (w + if c then 4#16 else 2#16) = w + 2#16 ∨ (w + if c then 4#16 else 2#16) = w + 4#16 := by
  cases c
  · exact .inl rfl
  · exact .inr rfl

/-- Settles O22: without a fault the instruction has had its own effect, and each effect names its one
PC update. -/
theorem pcUpdateKinds : Obligations.PcUpdateKinds := by
  intro i s t h hcount
  have he : OwnEffect i s t := ownEffect_of_faultCount_eq h hcount
  cases i with
  | jp nnn => obtain rfl := he; exact toNat_zextAddr nnn
  | call nnn => obtain ⟨_, rfl⟩ := he; exact toNat_zextAddr nnn
  | jpV0 nnn => obtain rfl := he; exact toNat_zextByte_add_zextAddr (s.getV 0) nnn
  | ret =>
    obtain ⟨hlt, hpos, rfl⟩ := he
    exact ⟨⟨s.sp - 1, hlt⟩, Nat.sub_add_cancel hpos, rfl⟩
  | seImm | sneImm | seReg | sneReg | sneRegLowN => obtain ⟨c, rfl⟩ := he; exact pc_of_skip c s.pc
  | skp | sknp => obtain ⟨k, p, c, rfl⟩ := he; exact pc_of_skip c s.pc
  | _ => obtain ⟨_, _, _, rfl⟩ := he; rfl

/-- Settles O25: a fault reset calls no hook; an instruction's own effect calls as many as D26 gives it. -/
theorem hookCallsPerInstruction : Obligations.HookCallsPerInstruction := by
  intro i s t h
  rcases exec_next_cases h with ⟨k, rfl, -⟩ | ⟨-, he⟩
  · simp
  · rw [if_pos he.faultCount_eq, he.hookCount_eq]

end Sys2Proof.Machine
end

section
/-! CLS, RET, CALL and the runs made of calls and jumps (40_system_and_flow.md R100 to R103). -/

namespace Sys2Proof.Machine

/-! ### The instructions -/

theorem exec_cls (s : State) : exec .cls s = .next (callClearScreen s).advance := rfl

/-- RET from a stack that is not empty, by the entry it pops. -/
theorem exec_ret_of_sp_eq {s : State} {j : Fin 16} (hsp : s.sp = j.val + 1) :
    exec .ret s = .next (State.setPc { s with sp := j.val } (s.stack.get j + 2#16)) := by
  have htop : s.sp - 1 = j.val := by omega
  rcases popThen_cases s fun w t => .next (t.setPc (w + 2#16)) with ⟨h, -⟩ | ⟨-, _, e⟩ | ⟨h, -⟩
  · omega
  · simp only [htop] at e
    exact e
  · omega

theorem exec_ret_of_sp_eq_zero {s : State} (hsp : s.sp = 0) :
    exec .ret s = .next (faultReset .stackUnderflow s) := if_pos hsp

theorem exec_call_of_lt (nnn : Addr12) {s : State} (hsp : s.sp < 16) :
    exec (.call nnn) s = .next
      (State.setPc { s with stack := s.stack.set s.sp s.pc hsp, sp := s.sp + 1 } (zextAddr nnn)) := by
  rcases pushThen_cases s.pc s fun t => .next (t.setPc (zextAddr nnn)) with ⟨h, -⟩ | ⟨_, e⟩ | ⟨h, -⟩
  · omega
  · exact e
  · omega

theorem exec_call_of_sp_eq_sixteen (nnn : Addr12) {s : State} (hsp : s.sp = 16) :
    exec (.call nnn) s = .next (faultReset .stackOverflow s) := if_pos hsp

/-- An entry written is seen at that entry alone. -/
theorem get_set_stack (stack : Vector Word 16) (k : Nat) (w : Word) (hk : k < 16) (j : Fin 16) :
    (stack.set k w hk).get j = if j.val = k then w else stack.get j := by
  simp only [Vector.get_eq_getElem, Vector.getElem_set, eq_comm]

/-- A run stops at a first step that is refused. -/
theorem run_succ_of_refused {n : Nat} {s : State} {r : Refusal} (h : step s = .refused r) :
    Sys2Proof.core.run (n + 1) s = .refused r := by
  have hs : Sys2Proof.core.step s = .refused r := h
  simp only [Host.Core.run, hs]

/-- A run of one step more is the run and then one step. -/
theorem run_succ_of_run_next {n : Nat} {s t : State} (h : Sys2Proof.core.run n s = .next t) :
    Sys2Proof.core.run (n + 1) s = step t := by
  induction n generalizing s with
  | zero =>
    cases h
    cases hstep : step t with
    | next u => exact run_succ_of_next hstep
    | fault r => cases r
    | refused r => exact run_succ_of_refused hstep
  | succ n ih =>
    cases hstep : step s with
    | next u =>
      rw [run_succ_of_next hstep] at h ⊢
      exact ih h
    | fault r => cases r
    | refused r =>
      rw [run_succ_of_refused hstep] at h
      cases h

/-! ### The statements about one instruction -/

/-- Settles O26: the call is recorded and PC moves on; every other field is the one before. -/
theorem clearScreenCallsTheDisplayOnce : Obligations.ClearScreenCallsTheDisplayOnce := by
  intro s
  have hpc : MovesPcBy 2 s (callClearScreen s).advance :=
    State.setPc_add_movesPcBy (by decide) (callClearScreen s)
  obtain ⟨hv, hi, hmem, hstack, htimers, -, hdraws⟩ := ChangesOnlyRegs.refl [] s
  exact ⟨_, exec_cls s, callClearScreen_portLog s, hpc, hv, hi, hmem, hstack, htimers, hdraws⟩

/-- Settles O27: the pop reads the entry below SP and writes none; at SP = 0 its test fails first. -/
theorem returnPopsAndLandsPastTheCall : Obligations.ReturnPopsAndLandsPastTheCall := by
  intro s
  refine ⟨fun j hsp => ?_, fun hsp => ⟨_, exec_ret_of_sp_eq_zero hsp, faultReset_isFaultReset _ s⟩⟩
  obtain ⟨hv, hi, hmem, ⟨-, hentries⟩, htimers, hports⟩ := ChangesOnlyRegs.refl [] s
  exact ⟨_, exec_ret_of_sp_eq hsp, rfl, rfl, hentries, hv, hi, hmem, htimers, hports⟩

/-- Settles O29: the push writes one entry; at SP = 16 its test fails first. -/
theorem callPushesItsOwnAddress : Obligations.CallPushesItsOwnAddress := by
  intro nnn s
  refine ⟨fun hsp => ?_,
    fun hsp => ⟨_, exec_call_of_sp_eq_sixteen nnn hsp, faultReset_isFaultReset _ s⟩⟩
  obtain ⟨hv, hi, hmem, -, htimers, hports⟩ := ChangesOnlyRegs.refl [] s
  exact ⟨_, exec_call_of_lt nnn hsp, toNat_zextAddr nnn, rfl, get_set_stack s.stack s.sp s.pc hsp, hv, hi,
    hmem, htimers, hports⟩

/-! ### The statements about runs -/

/-- The address of a jump or call to itself is its own operand. -/
theorem zextAddr_eq_of_toNat {nnn : Addr12} {w : Word} (h : w.toNat = nnn.toNat) : zextAddr nnn = w :=
  BitVec.eq_of_toNat_eq (by rw [toNat_zextAddr, h])

/-- Settles O32: the jump writes PC with the value it has. -/
theorem selfJumpIdles : Obligations.SelfJumpIdles := by
  intro s nnn hsp hpc hle hd
  have hsame : (beginStep s).setPc (zextAddr nnn) = beginStep s := by
    rw [zextAddr_eq_of_toNat hpc]; rfl
  rw [step_eq_exec hsp (by omega) hd, exec_jp, hsame]

/-- Settles O30: the RET pops the entry the CALL has just pushed. -/
theorem callThenReturnRoundTrip : Obligations.CallThenReturnRoundTrip := by
  intro s nnn hsp hpc hnnn hcall hret
  obtain ⟨t, ht, htpc, htsp, hstack, htv, hti, htmem, -⟩ :=
    (callPushesItsOwnAddress nnn (beginStep s)).1 hsp
  obtain ⟨u, hu, husp, hupc, -, huv, hui, humem, -⟩ :=
    (returnPopsAndLandsPastTheCall (beginStep t)).1 ⟨s.sp, hsp⟩ htsp
  have hret' : decode [t.mem.read t.pc.toNat, t.mem.read (t.pc.toNat + 1)] = .instr .ret := by
    rw [htmem, htmem, htpc]
    exact hret
  have hpushed : t.stack.get ⟨s.sp, hsp⟩ = s.pc := (hstack ⟨s.sp, hsp⟩).trans (if_pos rfl)
  have hback : u.pc = s.pc + 2#16 := hupc.trans (congrArg (· + 2#16) hpushed)
  have hfirst : step s = .next t := (step_eq_exec hsp.le hpc hcall).trans ht
  have hsecond : step t = .next u :=
    (step_eq_exec (htsp.trans_le hsp) (htpc.trans_le hnnn) hret').trans hu
  refine ⟨t, u, hfirst, hsecond, ?_, husp, fun j hj => (huv j hj).trans (htv j hj), hui.trans hti,
    fun a => (humem a).trans (htmem a)⟩
  rw [hback]
  exact State.setPc_add_movesPcBy (by decide) s hpc

/-- `n` CALLs at one address, each to that address, have run from `s` to `t`: `n` entries hold the address,
and no fault reset and no store has happened. -/
structure AfterSelfCalls (s : State) (n : Nat) (t : State) : Prop where
  sp : t.sp = n
  pc : t.pc = s.pc
  mem : t.mem = s.mem
  portLog : t.portLog = s.portLog
  entries : ∀ j : Fin 16, j.val < n → t.stack.get j = s.pc

/-- The CALL still stands where PC is, so the next step runs it again. -/
theorem AfterSelfCalls.step_eq_exec {s t : State} {n : Nat} {nnn : Addr12} (h : AfterSelfCalls s n t)
    (hn : n ≤ 16) (hpc : s.pc.toNat ≤ 0xFFE)
    (hd : decode [s.mem.read s.pc.toNat, s.mem.read (s.pc.toNat + 1)] = .instr (.call nnn)) :
    step t = exec (.call nnn) (beginStep t) :=
  Machine.step_eq_exec (h.sp.trans_le hn) (h.pc ▸ hpc) (by rwa [h.pc, h.mem])

/-- With room left, one more self-call pushes one more entry. -/
theorem AfterSelfCalls.succ {s t : State} {n : Nat} {nnn : Addr12} (h : AfterSelfCalls s n t)
    (hn : n < 16) (hpc : s.pc.toNat ≤ 0xFFE) (hself : s.pc.toNat = nnn.toNat)
    (hd : decode [s.mem.read s.pc.toNat, s.mem.read (s.pc.toNat + 1)] = .instr (.call nnn)) :
    ∃ u, step t = .next u ∧ AfterSelfCalls s (n + 1) u := by
  have hsp : (beginStep t).sp < 16 := h.sp.trans_lt hn
  refine ⟨_, (h.step_eq_exec hn.le hpc hd).trans (exec_call_of_lt nnn hsp), ?_⟩
  refine ⟨congrArg (· + 1) h.sp, zextAddr_eq_of_toNat hself, h.mem, h.portLog, fun j hj => ?_⟩
  refine (get_set_stack t.stack t.sp t.pc hsp j).trans ?_
  split
  · exact h.pc
  · next hne => exact h.entries j (by have := h.sp; omega)

/-- Settles O31: sixteen self-calls fill the stack, by induction on their number, and the seventeenth finds
it full. -/
theorem selfCallFillsTheStackThenOverflows : Obligations.SelfCallFillsTheStackThenOverflows := by
  intro s nnn hsp hself hnnn hd
  have hpc : s.pc.toNat ≤ 0xFFE := hself.trans_le hnnn
  have hfill : ∀ n ≤ 16, ∃ t : State, Sys2Proof.core.run n s = .next t ∧ AfterSelfCalls s n t := by
    intro n
    induction n with
    | zero => exact fun _ => ⟨s, rfl, hsp, rfl, rfl, rfl, nofun⟩
    | succ n ih =>
      intro hn
      obtain ⟨t, hrun, ht⟩ := ih (by omega)
      obtain ⟨u, hstep, hu⟩ := ht.succ hn hpc hself hd
      exact ⟨u, (run_succ_of_run_next hrun).trans hstep, hu⟩
  constructor
  · intro n hn
    obtain ⟨t, hrun, ht⟩ := hfill n hn
    exact ⟨t, hrun, ht.sp, ht.pc, by rw [State.faultCount, ht.portLog, State.faultCount], ht.entries⟩
  · obtain ⟨t, hrun, ht⟩ := hfill 16 le_rfl
    have hstep : step t = .next (faultReset .stackOverflow (beginStep t)) :=
      (ht.step_eq_exec le_rfl hpc hd).trans (exec_call_of_sp_eq_sixteen nnn ht.sp)
    exact ⟨_, (run_succ_of_run_next hrun).trans hstep, rfl, rfl, rfl,
      congrArg (List.cons _) ht.portLog, fun j => ht.entries j j.isLt⟩

end Sys2Proof.Machine
end

section
/-! The logical operations and the five instructions that write a flag (42_alu.md R144 to R151), and the
warning of 9XYN (41_skips.md R125). -/

namespace Sys2Proof.Machine

/-! ### The instructions, by their shared ends -/

theorem exec_orReg (x y : Reg) (s : State) :
    exec (.orReg x y) s = writeResult x (s.getV x ||| s.getV y) s := rfl

theorem exec_andReg (x y : Reg) (s : State) :
    exec (.andReg x y) s = writeResult x (s.getV x &&& s.getV y) s := rfl

theorem exec_xorReg (x y : Reg) (s : State) :
    exec (.xorReg x y) s = writeResult x (s.getV x ^^^ s.getV y) s := rfl

theorem exec_addReg (x y : Reg) (s : State) : exec (.addReg x y) s
    = writeResultAndFlag x (s.getV x + s.getV y) (carryFlag (s.getV x) (s.getV y)) s := rfl

theorem exec_sub (x y : Reg) (s : State) : exec (.sub x y) s
    = writeResultAndFlag x (s.getV x - s.getV y) (greaterFlag (s.getV x) (s.getV y)) s := rfl

theorem exec_subn (x y : Reg) (s : State) : exec (.subn x y) s
    = writeResultAndFlag x (s.getV y - s.getV x) (greaterFlag (s.getV y) (s.getV x)) s := rfl

theorem exec_shr (x y : Reg) (s : State) : exec (.shr x y) s
    = writeResultAndFlag x (s.getV x >>> 1) (shiftedOutLow (s.getV x)) s := rfl

theorem exec_shl (x y : Reg) (s : State) : exec (.shl x y) s
    = writeResultAndFlag x (s.getV x <<< 1) (shiftedOutHigh (s.getV x)) s := rfl

theorem exec_sneRegLowN (x y : Reg) (n : Nibble) (s : State) : exec (.sneRegLowN x y n) s
    = skipIf (s.getV x != s.getV y) (callTrace (.warn9XYN (encodeWord (.sneRegLowN x y n))) s) := rfl

/-! ### The flags as numbers -/

theorem flagByte_decide (p : Prop) [Decidable p] : flagByte (decide p) = if p then 1#8 else 0#8 := by
  simp only [flagByte, decide_eq_true_eq]

theorem carryFlag_eq (a b : Byte) :
    carryFlag a b = if a.toNat + b.toNat > 0xFF then 1#8 else 0#8 := flagByte_decide _

theorem greaterFlag_eq (a b : Byte) :
    greaterFlag a b = if a.toNat > b.toNat then 1#8 else 0#8 := flagByte_decide _

theorem toNat_shiftedOutLow (a : Byte) : (shiftedOutLow a).toNat = a.toNat % 2 := by
  rw [shiftedOutLow, BitVec.toNat_and]
  exact Nat.and_one_is_mod a.toNat

theorem toNat_shiftedOutHigh (a : Byte) : (shiftedOutHigh a).toNat = a.toNat / 128 := by
  have ha : a.toNat < 2 ^ 8 := a.isLt
  have hlow : (shiftedOutHigh a).toNat = (a >>> 7).toNat % 2 := toNat_shiftedOutLow (a >>> 7)
  rw [hlow, BitVec.toNat_ushiftRight, Nat.shiftRight_eq_div_pow]
  omega

theorem toNat_byte_sub (a b : Byte) : (a - b).toNat = (a.toNat + 256 - b.toNat) % 256 := by
  have hb : b.toNat < 2 ^ 8 := b.isLt
  rw [BitVec.toNat_sub]
  omega

theorem toNat_byte_shiftRight_one (a : Byte) : (a >>> 1).toNat = a.toNat / 2 := by
  rw [BitVec.toNat_ushiftRight, Nat.shiftRight_eq_div_pow, pow_one]

theorem toNat_byte_shiftLeft_one (a : Byte) : (a <<< 1).toNat = a.toNat * 2 % 256 := by
  rw [BitVec.toNat_shiftLeft, Nat.shiftLeft_eq, pow_one]

/-! ### The shared end of the five instructions (R140; D6) -/

/-- An instruction that writes V[x] and then VF: VF holds the flag, and V[x] the result unless x = 0xF. -/
theorem writeResultAndFlag_changesOnly {regs : List Reg} (x : Reg) (r f : Byte) (s : State)
    (hx : x ∈ regs) (hf : (0xF : Reg) ∈ regs) :
    ∃ t, writeResultAndFlag x r f s = .next t ∧ t.getV 0xF = f ∧ (x ≠ 0xF → t.getV x = r)
      ∧ MovesPcBy 2 s t ∧ ChangesOnlyRegs regs s t := by
  have hpc : MovesPcBy 2 s ((s.setV x r).setV flagReg f).advance :=
    State.setPc_add_movesPcBy (by decide) ((s.setV x r).setV flagReg f)
  have hflag : ((s.setV x r).setV flagReg f).advance.getV 0xF = f := State.getV_setV_self _ flagReg f
  have hdest : x ≠ 0xF → ((s.setV x r).setV flagReg f).advance.getV x = r := fun hne =>
    (State.getV_setV_ne _ flagReg x f hne).trans (State.getV_setV_self s x r)
  exact ⟨_, rfl, hflag, hdest, hpc, (((ChangesOnlyRegs.refl regs s).setV hx r).setV hf f).advance⟩

/-- The same for the two subtractions, with the strict flag (R148, R150; C9). -/
theorem writeDifference_changesOnly {x : Reg} (a b : Byte) (s : State) (hne : x ≠ 0xF) :
    ∃ t, writeResultAndFlag x (a - b) (greaterFlag a b) s = .next t
      ∧ (t.getV x).toNat = (a.toNat + 256 - b.toNat) % 256
      ∧ t.getV 0xF = (if a.toNat > b.toNat then 1#8 else 0#8)
      ∧ MovesPcBy 2 s t ∧ ChangesOnlyRegs [x, 0xF] s t := by
  obtain ⟨t, ht, hflag, hdest, hpc, hframe⟩ := writeResultAndFlag_changesOnly (regs := [x, 0xF])
    x (a - b) (greaterFlag a b) s (by simp) (by simp)
  exact ⟨t, ht, by rw [hdest hne, toNat_byte_sub], by rw [hflag, greaterFlag_eq], hpc, hframe⟩

/-- With x = 0xF the result is overwritten, so of V only VF changes, and it holds the flag. -/
theorem writeFlagLast_changesOnly (r f : Byte) (s : State) :
    ∃ t, writeResultAndFlag 0xF r f s = .next t ∧ MovesPcBy 2 s t ∧ ChangesOnlyRegs [0xF] s t
      ∧ t.getV 0xF = f := by
  obtain ⟨t, ht, hflag, -, hpc, hframe⟩ := writeResultAndFlag_changesOnly 0xF r f s
    (List.mem_singleton_self 0xF) (List.mem_singleton_self 0xF)
  exact ⟨t, ht, hpc, hframe, hflag⟩

/-- The same end for an operation given bit by bit. -/
theorem writeBits_changesOnlyDest {r : Byte} {bit : Nat → Bool} (x : Reg) (s : State)
    (hr : ∀ k, r.getLsbD k = bit k) :
    ∃ t, writeResult x r s = .next t ∧ MovesPcBy 2 s t ∧ ChangesOnlyRegs [x] s t
      ∧ ∀ k : Fin 8, (t.getV x).getLsbD k = bit k := by
  obtain ⟨t, ht, hdest, hpc, hframe⟩ := writeResult_changesOnlyDest x r s
  exact ⟨t, ht, hpc, hframe, fun k => by rw [hdest, hr]⟩

/-! ### The statements -/

/-- Settles O38: each operation writes V[x] alone, and acts bit by bit. -/
theorem logicalOperationsKeepTheFlag : Obligations.LogicalOperationsKeepTheFlag := by
  intro x y s
  rw [exec_orReg, exec_andReg, exec_xorReg]
  exact ⟨writeBits_changesOnlyDest x s fun _ => BitVec.getLsbD_or,
    writeBits_changesOnlyDest x s fun _ => BitVec.getLsbD_and,
    writeBits_changesOnlyDest x s fun _ => BitVec.getLsbD_xor⟩

/-- Settles O39: the sum wraps modulo 256 and the flag compares the sum that is not cut. -/
theorem addRegistersSetsTheCarry : Obligations.AddRegistersSetsTheCarry := by
  intro x y s hne
  obtain ⟨t, ht, hflag, hdest, hpc, hframe⟩ := writeResultAndFlag_changesOnly (regs := [x, 0xF])
    x (s.getV x + s.getV y) (carryFlag (s.getV x) (s.getV y)) s (by simp) (by simp)
  exact ⟨t, ht, by rw [hdest hne, BitVec.toNat_add], by rw [hflag, carryFlag_eq], hpc, hframe⟩

/-- Settles O40: SUB and SUBN are one subtraction with the operands exchanged. -/
theorem subtractionsSetTheStrictFlag : Obligations.SubtractionsSetTheStrictFlag := by
  intro x y s hne
  rw [exec_sub, exec_subn]
  exact ⟨writeDifference_changesOnly (s.getV x) (s.getV y) s hne,
    writeDifference_changesOnly (s.getV y) (s.getV x) s hne⟩

/-- Settles O41: a shift by one halves or doubles, and the flag is the bit that leaves. -/
theorem shiftsWorkInPlace : Obligations.ShiftsWorkInPlace := by
  intro x y s hne
  rw [exec_shr, exec_shl]
  constructor
  · obtain ⟨t, ht, hflag, hdest, hpc, hframe⟩ := writeResultAndFlag_changesOnly (regs := [x, 0xF])
      x (s.getV x >>> 1) (shiftedOutLow (s.getV x)) s (by simp) (by simp)
    exact ⟨t, ht, by rw [hdest hne, toNat_byte_shiftRight_one], by rw [hflag, toNat_shiftedOutLow], hpc,
      hframe⟩
  · obtain ⟨t, ht, hflag, hdest, hpc, hframe⟩ := writeResultAndFlag_changesOnly (regs := [x, 0xF])
      x (s.getV x <<< 1) (shiftedOutHigh (s.getV x)) s (by simp) (by simp)
    exact ⟨t, ht, by rw [hdest hne, toNat_byte_shiftLeft_one], by rw [hflag, toNat_shiftedOutHigh], hpc,
      hframe⟩

/-- Settles O42: the five forms end in the same two writes, of which VF's is the last; what differs is the
flag. -/
theorem flagIsWrittenLast : Obligations.FlagIsWrittenLast := by
  intro y s
  rw [exec_addReg, exec_sub, exec_subn, exec_shr, exec_shl]
  simp only [← carryFlag_eq, ← greaterFlag_eq, ← toNat_shiftedOutLow, ← toNat_shiftedOutHigh,
    BitVec.toNat_inj]
  exact ⟨writeFlagLast_changesOnly _ _ s, writeFlagLast_changesOnly _ _ s, writeFlagLast_changesOnly _ _ s,
    writeFlagLast_changesOnly _ _ s, writeFlagLast_changesOnly _ _ s⟩

/-- Settles O35: the warning is one call of the trace, after which the instruction is the skip of 9XY0. -/
theorem toleratedLowNibbleWarnsAndSkips : Obligations.ToleratedLowNibbleWarnsAndSkips := by
  intro x y n s hn
  obtain ⟨t, ht, ⟨hv, hi, hmem, hstack, htimers, hlog, hdraws⟩, hpc⟩ := skipIf_bne_movesPcBy
    (s.getV x) (s.getV y) (callTrace (.warn9XYN (encodeWord (.sneRegLowN x y n))) s)
  have hcount : t.faultCount = s.faultCount := by
    rw [State.faultCount, hlog, callTrace_portLog, List.countP_cons_of_neg (by simp [PortEvent.isFault]),
      State.faultCount]
  exact ⟨t, _, (exec_sneRegLowN x y n s).trans ht, decodeWord_encodeWord (bne_iff_ne.mpr hn), hlog, hpc, hv,
    hi, hmem, hstack, htimers, hdraws, hcount⟩

end Sys2Proof.Machine
end

section
/-! The instructions that ask a device (43_index_jump_random.md R172; 44_display_input.md R180 to R182) and
those that write I from a register (45_fx_family.md R193, R194). -/

namespace Sys2Proof.Machine

/-! ### One port call and what stays around it -/

/-- An instruction that calls a port once and otherwise writes only PC and the listed registers: the call
is the newest of the record, the count of answers is one more, and the rest stays. -/
theorem ChangesOnlyRegs.of_portCall {regs : List Reg} {e : PortEvent} {s t : State}
    (h : ChangesOnlyRegs regs (s.logPort e).nextDraw t) :
    t.portLog = e :: s.portLog ∧ t.draws = s.draws + 1 ∧ KeepsV regs s t ∧ KeepsI s t ∧ KeepsMem s t
      ∧ KeepsStack s t ∧ KeepsTimers s t := by
  obtain ⟨hv, hi, hmem, hstack, htimers, hlog, hdraws⟩ := h
  exact ⟨hlog, hdraws, hv, hi, hmem, hstack, htimers⟩

/-! ### The random port -/

theorem exec_rnd (x : Reg) (nn : Byte) (s : State) :
    exec (.rnd x nn) s = writeResult x ((callRand8 s).1 &&& nn) (callRand8 s).2 := rfl

/-- A bit the mask does not have is not in the result. -/
theorem getLsbD_and_eq_false_of_mask {r nn : Byte} {k : Nat} (h : nn.getLsbD k = false) :
    (r &&& nn).getLsbD k = false := by
  rw [BitVec.getLsbD_and, h, Bool.and_false]

/-- Settles O44: the drawn byte is whatever the port answers; the mask is an `and`. -/
theorem randomByteIsMasked : Obligations.RandomByteIsMasked := by
  intro x nn s
  obtain ⟨t, ht, hdest, hpc, hframe⟩ :=
    writeResult_changesOnlyDest x ((callRand8 s).1 &&& nn) (callRand8 s).2
  obtain ⟨hlog, hdraws, hkeeps⟩ := ChangesOnlyRegs.of_portCall hframe
  exact ⟨t, _, (exec_rnd x nn s).trans ht, hlog, hdraws, hdest,
    fun k hk => by rw [hdest]; exact getLsbD_and_eq_false_of_mask hk, hpc, hkeeps⟩

/-! ### The display -/

theorem drawThenFlag_eq (x y : Reg) (rows : List Byte) (s : State) :
    drawThenFlag x y rows s
      = writeResult flagReg (flagByte (callDrawSprite (s.getV x) (s.getV y) rows s).1)
          (callDrawSprite (s.getV x) (s.getV y) rows s).2 := rfl

/-- DRW with no row, or with all its rows below 0x1000: the display is called (D10). -/
theorem exec_drw_of_le {n : Nibble} (x y : Reg) {s : State}
    (h : n.toNat = 0 ∨ s.i.toNat + n.toNat - 1 ≤ 0xFFF) :
    exec (.drw x y n) s = drawThenFlag x y (s.mem.readBytes s.i.toNat n.toNat) s := by
  show execDrw x y n s = _
  unfold execDrw
  split
  · next hn => rw [hn]; rfl
  · next hn =>
    have hpos : n.toNat ≠ 0 := fun h0 => hn (BitVec.eq_of_toNat_eq h0)
    exact withRangeAtI_of_inRange ⟨by omega, by omega⟩

theorem exec_drw_of_gt {n : Nibble} (x y : Reg) {s : State} (hn : 1 ≤ n.toNat)
    (h : s.i.toNat + n.toNat - 1 > 0xFFF) :
    exec (.drw x y n) s = .next (faultReset .addressRangeFault s) := by
  have hne : n ≠ 0#4 := fun h0 => by rw [h0] at hn; exact absurd hn (by decide)
  show execDrw x y n s = _
  rw [execDrw, if_neg hne]
  exact withRangeAtI_of_not_inRange ((not_inRange_iff hn).mpr h)

/-- Settles O45: the range test lets the call through or takes the fault, and n = 0 skips the test. -/
theorem drawSpriteDelegatesToTheDisplay : Obligations.DrawSpriteDelegatesToTheDisplay := by
  intro x y n s
  refine ⟨fun hle => ?_, fun hn hgt => ⟨_, exec_drw_of_gt x y hn hgt, faultReset_isFaultReset _ s⟩⟩
  have hrows (k : Nat) (hk : k < n.toNat) :
      (s.mem.readBytes s.i.toNat n.toNat)[k]? = some (s.mem.read (s.i.toNat + k)) := by
    rw [Memory.getElem?_readBytes, if_pos hk]
  obtain ⟨t, ht, hflag, hpc, hframe⟩ := writeResult_changesOnlyDest flagReg
    (flagByte (callDrawSprite (s.getV x) (s.getV y) (s.mem.readBytes s.i.toNat n.toNat) s).1)
    (callDrawSprite (s.getV x) (s.getV y) (s.mem.readBytes s.i.toNat n.toNat) s).2
  obtain ⟨hlog, hdraws, hkeeps⟩ := ChangesOnlyRegs.of_portCall hframe
  have hexec := (exec_drw_of_le x y hle).trans (drawThenFlag_eq x y _ s)
  exact ⟨t, _, _, hexec.trans ht, hlog, Memory.length_readBytes .., hrows, hflag, hdraws, hpc, hkeeps⟩

/-! ### The keys -/

theorem exec_skp (x : Reg) (s : State) : exec (.skp x) s
    = skipIf (callIsKeyPressed (lowNibble (s.getV x)) s).1
        (callIsKeyPressed (lowNibble (s.getV x)) s).2 := rfl

theorem exec_sknp (x : Reg) (s : State) : exec (.sknp x) s
    = skipIf (!(callIsKeyPressed (lowNibble (s.getV x)) s).1)
        (callIsKeyPressed (lowNibble (s.getV x)) s).2 := rfl

/-- SkipIf on the negation of an answer. -/
theorem skipIf_not_movesPcBy (c : Bool) (s : State) :
    ∃ t, skipIf (!c) s = .next t ∧ ChangesOnlyRegs [] s t ∧ MovesPcBy (if c then 2 else 4) s t := by
  cases c
  · exact skipIf_movesPcBy true s
  · exact skipIf_movesPcBy false s

theorem val_lowNibble (b : Byte) : (lowNibble b).val = b.toNat % 16 := by
  show (b.extractLsb' 0 4).toNat = _
  simp only [BitVec.extractLsb'_toNat, Nat.shiftRight_zero]

/-- Settles O46: both instructions make the same query of the same state, so they get the same answer, and
skip on it and on its negation. -/
theorem keySkipsFollowTheKeyState : Obligations.KeySkipsFollowTheKeyState := by
  intro x s
  obtain ⟨t, ht, htframe, htpc⟩ := skipIf_movesPcBy
    (callIsKeyPressed (lowNibble (s.getV x)) s).1 (callIsKeyPressed (lowNibble (s.getV x)) s).2
  obtain ⟨u, hu, huframe, hupc⟩ := skipIf_not_movesPcBy
    (callIsKeyPressed (lowNibble (s.getV x)) s).1 (callIsKeyPressed (lowNibble (s.getV x)) s).2
  obtain ⟨htlog, htdraws, htv, hti, htmem, htstack, httimers⟩ := ChangesOnlyRegs.of_portCall htframe
  obtain ⟨hulog, hudraws, hukeeps⟩ := ChangesOnlyRegs.of_portCall huframe
  exact ⟨_, _, t, u, val_lowNibble _, (exec_skp x s).trans ht, (exec_sknp x s).trans hu, htlog, hulog,
    htdraws, hudraws, htpc, hupc, htv, hti, htmem, htstack, httimers, hukeeps⟩

/-! ### I from a register -/

theorem exec_addI (x : Reg) (s : State) :
    exec (.addI x) s = .next (s.setI (s.i + zextByte (s.getV x))).advance := rfl

theorem exec_ldF (x : Reg) (s : State) :
    exec (.ldF x) s = .next (s.setI (digitAddress (s.getV x))).advance := rfl

/-- A digit's sprite begins at most 75 above FONT_BASE, which is at most 432 (D5), so nothing wraps. -/
theorem toNat_digitAddress (b : Byte) :
    (digitAddress b).toNat = Config.fontBase.val + 5 * (b.toNat % 16) := by
  have hbase : Config.fontBase.val < 433 := Config.fontBase.isLt
  rw [digitAddress, val_lowNibble, BitVec.toNat_ofNat]
  omega

/-- Settles O48: the sum is one of 16-bit words. -/
theorem addToIndexWrapsWithoutAFlag : Obligations.AddToIndexWrapsWithoutAFlag := by
  intro x s
  have hi : (s.setI (s.i + zextByte (s.getV x))).advance.i.toNat
      = (s.i.toNat + (s.getV x).toNat) % 65536 := by
    rw [State.advance_i, State.setI_i, BitVec.toNat_add, toNat_zextByte]
  exact ⟨_, exec_addI x s, hi, setI_advance_changesOnlyI _ s⟩

/-- Settles O49: the last of the five bytes is at most 432 + 75 + 4, below 0x200. -/
theorem digitSpriteAddress : Obligations.DigitSpriteAddress := by
  intro x s
  have hi : (s.setI (digitAddress (s.getV x))).advance.i.toNat
      = Config.fontBase.val + 5 * ((s.getV x).toNat % 16) := toNat_digitAddress (s.getV x)
  have hbase : Config.fontBase.val < 433 := Config.fontBase.isLt
  exact ⟨_, exec_ldF x s, hi, by omega, setI_advance_changesOnlyI _ s⟩

end Sys2Proof.Machine
end

section
/-! The stores and the block load of family 0xF (45_fx_family.md R195 to R197), and the fetch of stored
bytes (20_memory.md R63). -/

namespace Sys2Proof.Machine

/-! ### Reading back a run of bytes -/

/-- A byte of a stored run is read at its place. -/
theorem Memory.read_writeBytes_of_getElem? {a k : Nat} {b : Byte} {bytes : List Byte} {m : Memory}
    (hm : m.wf = true) (ha : a + bytes.length ≤ memSize) (hb : bytes[k]? = some b) :
    (m.writeBytes a bytes).read (a + k) = b := by
  rw [Memory.read_writeBytes hm ha, if_pos (Nat.le_add_right a k), Nat.add_sub_cancel_left, hb,
    Option.getD_some]

/-- The first byte of a stored run is read at its address. -/
theorem Memory.read_writeBytes_head {a : Nat} {b : Byte} {rest : List Byte} {m : Memory}
    (hm : m.wf = true) (ha : a + (b :: rest).length ≤ memSize) :
    (m.writeBytes a (b :: rest)).read a = b :=
  Memory.read_writeBytes_of_getElem? (k := 0) hm ha rfl

/-- Bytes that decode to an instruction are two at least. -/
theorem exists_pair_of_decode {bytes : List Byte} {i : Instr} (h : decode bytes = .instr i) :
    ∃ hi lo rest, bytes = hi :: lo :: rest := by
  match bytes, h with
  | hi :: lo :: rest, _ => exact ⟨hi, lo, rest, rfl⟩

/-- Where a run of bytes that decode to an instruction is stored, the two bytes read decode to it. -/
theorem decode_read_writeBytes {a : Nat} {bytes : List Byte} {m : Memory} {i : Instr} (hm : m.wf = true)
    (ha : a + bytes.length ≤ memSize) (hd : decode bytes = .instr i) :
    decode [(m.writeBytes a bytes).read a, (m.writeBytes a bytes).read (a + 1)] = .instr i := by
  obtain ⟨hi, lo, rest, rfl⟩ := exists_pair_of_decode hd
  rw [Memory.read_writeBytes_head hm ha, Memory.read_writeBytes_of_getElem? (k := 1) hm ha rfl]
  exact hd

/-! ### The instructions, in range and past it -/

theorem exec_ldB_of_le (x : Reg) {s : State} (h : s.i.toNat + 2 ≤ 0xFFF) : exec (.ldB x) s = .next
    (State.advance { s with mem := s.mem.writeBytes s.i.toNat (decimalDigits (s.getV x)) }) :=
  withRangeAtI_of_inRange ⟨by omega, by omega⟩

theorem exec_ldB_of_gt (x : Reg) {s : State} (h : s.i.toNat + 2 > 0xFFF) :
    exec (.ldB x) s = .next (faultReset .addressRangeFault s) :=
  withRangeAtI_of_not_inRange ((not_inRange_iff (by omega)).mpr h)

theorem exec_ldMemStore_of_le {x : Reg} {s : State} (h : s.i.toNat + x.val ≤ 0xFFF) :
    exec (.ldMemStore x) s
      = .next (State.advance { s with mem := s.mem.writeBytes s.i.toNat (s.regsUpTo x) }) :=
  withRangeAtI_of_inRange ⟨by omega, by omega⟩

theorem exec_ldMemStore_of_gt {x : Reg} {s : State} (h : s.i.toNat + x.val > 0xFFF) :
    exec (.ldMemStore x) s = .next (faultReset .addressRangeFault s) :=
  withRangeAtI_of_not_inRange ((not_inRange_iff (by omega)).mpr h)

theorem exec_ldMemLoad_of_le {x : Reg} {s : State} (h : s.i.toNat + x.val ≤ 0xFFF) :
    exec (.ldMemLoad x) s = .next
      (State.advance { s with v := loadRegs s.v 0 (s.mem.readBytes s.i.toNat (x.val + 1)) }) :=
  withRangeAtI_of_inRange ⟨by omega, by omega⟩

theorem exec_ldMemLoad_of_gt {x : Reg} {s : State} (h : s.i.toNat + x.val > 0xFFF) :
    exec (.ldMemLoad x) s = .next (faultReset .addressRangeFault s) :=
  withRangeAtI_of_not_inRange ((not_inRange_iff (by omega)).mpr h)

/-! ### What a store leaves -/

/-- The frame of a store: memory and PC apart, nothing changes, and PC moves by 2. -/
theorem setMem_advance_changesOnlyMem (m : Memory) (s : State) :
    MovesPcBy 2 s (State.advance { s with mem := m }) ∧ KeepsV [] s (State.advance { s with mem := m })
      ∧ KeepsI s (State.advance { s with mem := m }) ∧ KeepsStack s (State.advance { s with mem := m })
      ∧ KeepsTimers s (State.advance { s with mem := m })
      ∧ KeepsPorts s (State.advance { s with mem := m }) := by
  have hpc : MovesPcBy 2 s (State.advance { s with mem := m }) :=
    State.setPc_add_movesPcBy (by decide) { s with mem := m }
  obtain ⟨hv, hi, -, hrest⟩ := ChangesOnlyRegs.refl [] s
  exact ⟨hpc, hv, hi, hrest⟩

/-- A block store puts V[j] at I + j (R196). -/
theorem read_blockStore {x j : Reg} {s : State} (hm : s.mem.wf = true) (h : s.i.toNat + x.val ≤ 0xFFF)
    (hj : j ≤ x) : (s.mem.writeBytes s.i.toNat (s.regsUpTo x)).read (s.i.toNat + j.val) = s.getV j :=
  Memory.read_writeBytes_of_getElem? hm (by rw [length_regsUpTo, memSize]; omega)
    (getElem?_regsUpTo s x j hj)

theorem decimalDigits_fit {a : Nat} (b : Byte) (ha : a + 2 ≤ 0xFFF) :
    a + (decimalDigits b).length ≤ memSize := by
  rw [length_decimalDigits, memSize]; omega

/-- A decimal store puts hundreds, tens and units at I, I + 1 and I + 2 (R195). -/
theorem read_decimalStore {a : Nat} {m : Memory} (b : Byte) (hm : m.wf = true) (ha : a + 2 ≤ 0xFFF) :
    (m.writeBytes a (decimalDigits b)).read a = BitVec.ofNat 8 (b.toNat / 100)
      ∧ (m.writeBytes a (decimalDigits b)).read (a + 1) = BitVec.ofNat 8 (b.toNat / 10 % 10)
      ∧ (m.writeBytes a (decimalDigits b)).read (a + 2) = BitVec.ofNat 8 (b.toNat % 10) :=
  ⟨Memory.read_writeBytes_head hm (decimalDigits_fit b ha),
    Memory.read_writeBytes_of_getElem? (k := 1) hm (decimalDigits_fit b ha) rfl,
    Memory.read_writeBytes_of_getElem? (k := 2) hm (decimalDigits_fit b ha) rfl⟩

/-! ### The statements -/

/-- Settles O50: the three digits make up the byte, and the last two are remainders by 10. -/
theorem decimalDigitsAreStored : Obligations.DecimalDigitsAreStored := by
  intro x s hm
  refine ⟨fun h => ?_, fun h => ⟨_, exec_ldB_of_gt x h, faultReset_isFaultReset _ s⟩⟩
  have hb : (s.getV x).toNat < 2 ^ 8 := (s.getV x).isLt
  obtain ⟨hhundreds, htens, hunits⟩ := read_decimalStore (s.getV x) hm h
  have houtside : KeepsMemOutside s.i.toNat 3 s
      (State.advance { s with mem := s.mem.writeBytes s.i.toNat (decimalDigits (s.getV x)) }) :=
    fun c hc => Memory.read_writeBytes_outside hm (decimalDigits_fit _ h) hc
  refine ⟨_, exec_ldB_of_le x h, ?_, ?_, ?_, houtside, setMem_advance_changesOnlyMem _ s⟩
  all_goals simp only [State.advance_mem, hhundreds, htens, hunits, BitVec.toNat_ofNat]
  all_goals omega

/-- Settles O51: the run of writes covers I to I + x, each address by its register. -/
theorem blockStoreWritesExactlyItsBytes : Obligations.BlockStoreWritesExactlyItsBytes := by
  intro x s hm
  refine ⟨fun h => ?_, fun h => ⟨_, exec_ldMemStore_of_gt h, faultReset_isFaultReset _ s⟩⟩
  have hlen : s.i.toNat + (s.regsUpTo x).length ≤ memSize := by rw [length_regsUpTo, memSize]; omega
  have houtside : KeepsMemOutside s.i.toNat (x.val + 1) s
      (State.advance { s with mem := s.mem.writeBytes s.i.toNat (s.regsUpTo x) }) :=
    fun c hc => Memory.read_writeBytes_outside hm hlen (by rwa [length_regsUpTo])
  exact ⟨_, exec_ldMemStore_of_le h, fun j hj => read_blockStore hm h hj, houtside,
    setMem_advance_changesOnlyMem _ s⟩

/-- A block load puts the byte at I + j into V[j] (R197). -/
theorem getV_blockLoad {x j : Reg} (s : State) (hj : j ≤ x) :
    State.getV { s with v := loadRegs s.v 0 (s.mem.readBytes s.i.toNat (x.val + 1)) } j
      = s.mem.read (s.i.toNat + j.val) := by
  have hlt : j.val < x.val + 1 := Nat.lt_succ_of_le hj
  rw [State.getV, Vector.get_eq_getElem, getElem_loadRegs, if_pos (Nat.zero_le _), Nat.sub_zero,
    Memory.getElem?_readBytes, if_pos hlt, Option.getD_some]

/-- Settles O52: the bytes read are those at I to I + x, each into its register. -/
theorem blockLoadReadsExactlyItsBytes : Obligations.BlockLoadReadsExactlyItsBytes := by
  intro x s
  refine ⟨fun h => ?_, fun h => ⟨_, exec_ldMemLoad_of_gt h, faultReset_isFaultReset _ s⟩⟩
  have hpc : MovesPcBy 2 s
      (State.advance { s with v := loadRegs s.v 0 (s.mem.readBytes s.i.toNat (x.val + 1)) }) :=
    State.setPc_add_movesPcBy (by decide)
      { s with v := loadRegs s.v 0 (s.mem.readBytes s.i.toNat (x.val + 1)) }
  obtain ⟨-, hrest⟩ := ChangesOnlyRegs.refl [] s
  exact ⟨_, exec_ldMemLoad_of_le h, fun j hj => getV_blockLoad s hj,
    fun j hj => getElem_loadRegs_of_length_le j.isLt (by rw [Memory.length_readBytes]; exact hj), hpc, hrest⟩

/-- Settles O53: the store leaves I, so the load reads the bytes just stored. -/
theorem blockStoreThenLoadRestoresTheRegisters : Obligations.BlockStoreThenLoadRestoresTheRegisters := by
  intro x s t v' hm h ht
  rw [exec_ldMemStore_of_le h] at ht
  cases ht
  exact ⟨_, exec_ldMemLoad_of_le h, fun j hj => (getV_blockLoad _ hj).trans (read_blockStore hm h hj)⟩

/-- What a fetch reads where PC is known as a number (R71). -/
theorem fetch_setPc {s : State} {w : Word} {a : Nat} (hw : w.toNat = a) (ha : a ≤ 0xFFE) :
    fetch (s.setPc w) = some [s.mem.read a, s.mem.read (a + 1)] := by
  subst hw
  exact fetch_eq (s.setPc w) ha

/-- Settles O17: the fetch reads two neighbouring bytes of the run just written. -/
theorem storedBytesAreSeenByTheNextFetch : Obligations.StoredBytesAreSeenByTheNextFetch := by
  refine ⟨fun s x hm h => ⟨_, exec_ldMemStore_of_le h, fun j k hk hkx => ?_⟩,
    fun s x hm h => ⟨_, exec_ldB_of_le x h, ?_, ?_⟩⟩
  · have hkx' : k.val ≤ x.val := hkx
    have hjx : j ≤ x := by rw [Fin.le_def]; omega
    have hpc : (BitVec.ofNat 16 (s.i.toNat + j.val)).toNat = s.i.toNat + j.val := by
      rw [BitVec.toNat_ofNat]; omega
    rw [fetch_setPc hpc (by omega), State.advance_mem, read_blockStore hm h hjx, Nat.add_assoc, ← hk,
      read_blockStore hm h hkx]
  · obtain ⟨hhundreds, htens, -⟩ := read_decimalStore (s.getV x) hm h
    rw [fetch_setPc (a := s.i.toNat) rfl (by omega), State.advance_mem, hhundreds, htens]
  · obtain ⟨-, htens, hunits⟩ := read_decimalStore (s.getV x) hm h
    have hpc : (s.i + 1#16).toNat = s.i.toNat + 1 := by
      rw [BitVec.toNat_add, BitVec.toNat_ofNat]; omega
    rw [fetch_setPc hpc (by omega), State.advance_mem, htens, hunits]

end Sys2Proof.Machine
end

section
/-! What the host does between steps: placing a word, the accessors, the reset, and the launch of an image
(10_state.md R41; 20_memory.md R58; 70_reset_and_hazards.md R251, R253). -/

namespace Sys2Proof.Machine

/-! ### A placed word -/

theorem toNat_placeAddress_le (s : State) : (placeAddress s).toNat ≤ 0xFFE := by
  unfold placeAddress
  split
  · assumption
  · decide

theorem decode_tableWord_of_some {nbits w : Nat} {i : Instr} (h : decodeTableWord nbits w = some i) :
    decode (bytesOfWord (tableWord nbits w)) = .instr i := by
  unfold decodeTableWord at h
  cases hd : decode (bytesOfWord (tableWord nbits w)) with
  | instr j => rw [hd] at h; cases h; rfl
  | illegal why => rw [hd] at h; cases h

/-- Settles O16: PC points to a stored pair of bytes that decode to the instruction. -/
theorem placedWordIsRunByTheNextStep : Obligations.PlacedWordIsRunByTheNextStep := by
  intro s nbits w i ⟨hsp, hm⟩ hi
  have hpc : (placeAddress s).toNat ≤ 0xFFE := toNat_placeAddress_le s
  have hlen : (placeAddress s).toNat + (bytesOfWord (tableWord nbits w)).length ≤ memSize := by
    show _ + 2 ≤ 0x1000
    omega
  exact step_eq_exec hsp hpc (decode_read_writeBytes hm hlen (decode_tableWord_of_some hi))

/-! ### The reset and the accessors -/

/-- Settles O54: the spec's part of the state after a full reset is the state of construction. -/
theorem fullResetZeroesTheWholeState : Obligations.FullResetZeroesTheWholeState :=
  fun _ => constructionLeavesEverythingZero

/-- Settles O55: in range the accessors are the memory's own read and write. -/
theorem hostMemoryAccessorsCheckTheirAddress : Obligations.HostMemoryAccessorsCheckTheirAddress := by
  intro a b s hm
  refine ⟨fun ha => ⟨if_pos ha, _, if_pos ha, ?_, fun c hc => ?_, rfl, ?_⟩, fun ha => ?_⟩
  · exact (Memory.read_write hm).trans (if_pos rfl)
  · exact (Memory.read_write hm).trans (if_neg (by omega))
  · exact Memory.wf_write hm (by rw [memSize]; omega)
  · exact ⟨if_neg (by omega), if_neg (by omega)⟩

/-! ### The launch -/

theorem loadImage_of_length_le {image : List Byte} {s : State} (h : image.length ≤ 3584) :
    loadImage image s = .ok { s with mem := s.mem.writeBytes 0x200 image } := if_pos h

theorem image_fits {image : List Byte} (h : image.length ≤ 3584) : 0x200 + image.length ≤ memSize := by
  rw [memSize]; omega

/-- Settles O56: the image is one run of writes, which the length test keeps below 0x1000. -/
theorem imageIsLoadedWholeOrRejected : Obligations.ImageIsLoadedWholeOrRejected := by
  intro image s hm
  refine ⟨fun h => ⟨_, loadImage_of_length_le h, fun k hk => ?_, fun c hc => ?_, rfl, ?_⟩, fun h => ?_⟩
  · have hbyte : image[k]? = some image[k] := List.getElem?_eq_getElem hk
    rw [hbyte]
    exact congrArg some (Memory.read_writeBytes_of_getElem? hm (image_fits h) hbyte).symm
  · exact Memory.read_writeBytes_outside hm (image_fits h) hc
  · exact Memory.wf_writeBytes hm (image_fits h)
  · exact if_neg (Nat.not_le.mpr h)

/-- A font of 80 bytes is loaded, if at all, below 0x200 (D5), so no byte of an image changes. -/
theorem loadFontIfAny_keeps_image {font : Option (List Byte)} {s : State} (hm : s.mem.wf = true)
    (hfont : ∀ sprites, font = some sprites → sprites.length = 80) :
    ∃ m : Memory, loadFontIfAny font s = .ok { s with mem := m }
      ∧ ∀ c, 0x200 ≤ c → m.read c = s.mem.read c := by
  cases font with
  | none => exact ⟨s.mem, rfl, fun _ _ => rfl⟩
  | some sprites =>
    have hlen : sprites.length = 80 := hfont sprites rfl
    have hbase : Config.fontBase.val < 433 := Config.fontBase.isLt
    exact ⟨_, if_pos hlen, fun c hc =>
      Memory.read_writeBytes_outside hm (by rw [memSize]; omega) (.inr (by omega))⟩

/-- A launch is the load of the image, of the font if any, and PC set to 0x200. -/
theorem boot_eq_ok {image : List Byte} {font : Option (List Byte)} {s t u : State}
    (himage : loadImage image s = .ok t) (hfont : loadFontIfAny font t = .ok u) :
    boot image font s = .ok (hostSetPc 0x200#16 u) := by
  simp only [boot, himage, hfont]
  rfl

/-- Settles O57: the image's first two bytes stand at 0x200, where no font reaches, and PC is there. -/
theorem bootedImageRunsItsFirstWord : Obligations.BootedImageRunsItsFirstWord := by
  intro image font s i ⟨hsp, hm⟩ hlen hfont hd
  obtain ⟨m, hload, hkeep⟩ := loadFontIfAny_keeps_image
    (s := { s with mem := s.mem.writeBytes 0x200 image }) (Memory.wf_writeBytes hm (image_fits hlen)) hfont
  refine ⟨_, boot_eq_ok (loadImage_of_length_le hlen) hload, rfl, ?_⟩
  have hword : decode [m.read 0x200, m.read 0x201] = .instr i := by
    rw [hkeep 0x200 (by decide), hkeep 0x201 (by decide)]
    exact decode_read_writeBytes hm (image_fits hlen) hd
  have hpc : (0x200#16 : Word).toNat ≤ 0xFFE := by decide
  exact step_eq_exec hsp hpc hword

end Sys2Proof.Machine
end
